-- ==== Sys2Proof/Word.lean ====
section
/-!
DEFINITION. The word and byte types of the HCE (00_scope.md R8, R10, R11).
Every register and every block word is 32 bits, unsigned, and `+` on it is addition modulo 2^32 (R11);
`&&&`, `|||`, `^^^` and `~~~` are the bitwise operators `&`, `|`, `^` and `!` of R11.
-/

namespace Sys2Proof

/-- A 32-bit word (R8, WORD). -/
abbrev Word := BitVec 32

/-- One byte of the message (R20, MSG) or of the padded buffer (R121). -/
abbrev Byte := BitVec 8

end Sys2Proof
end

