-- ==== Sys2Proof/Config.lean ====
section
/-!
DEFINITION. The parameters of 00_scope.md: the fixed ones (R8) as constants, the open ones (R9) as a record that a
definition which depends on one takes as an argument (92_eei_decisions.md: "a named parameter the model takes as an
argument").
-/

namespace Sys2Proof.Config

/-- R8, BLOCK_WORDS. -/
abbrev blockWords : Nat := 16

/-- R8, ROUNDS. -/
abbrev roundCount : Nat := 64

/-- R20: MSG has 56 bytes, and a message of 56 bytes or more is one PACK rejects (R24). -/
abbrev msgBytes : Nat := 56

/-- R8, MAX_MSG_BYTES: the longest message PACK accepts. -/
abbrev maxMsgBytes : Nat := 55

/-- R9, WINDOW_BYTES. -/
abbrev windowBytes : Nat := 256

/-- R8, SEED_MAX (host). -/
abbrev seedMax : Nat := 20

/-- R8 and R226, MASK1 (host): the mask of variant 1. -/
def mask1 : Word := 0x00F0FFFF#32

/-- R8 and R226, MASK2 (host): the mask of variant 2. -/
def mask2 : Word := 0x00FFFFFF#32

/-- The open parameters of R9, and the two properties R62 and R67 ask of a platform. No value of any of them is fixed here.
`hceBase` is read by `Platform` (R51), `nEngines` by `Platform.wf` (R264), `counterBits` by the search driver (R223).
`cyclesPerRound` is read by `Params.wf` alone, as R9 and R297 say: "no rule of the model depends on it" (log entry 15). -/
structure Params where
  /-- HCE_BASE of each engine of the platform, in order. -/
  hceBase : List Nat
  /-- CYCLES_PER_ROUND. -/
  cyclesPerRound : Nat
  /-- N_ENGINES. -/
  nEngines : Nat
  /-- COUNTER_BITS (host). -/
  counterBits : Nat
  /-- How many hosts issue accesses to one engine (R67). -/
  hostsPerEngine : Nat
  /-- Whether the platform delivers a host's accesses in program order, unmerged and uncached (R62). -/
  orderedDelivery : Bool
deriving DecidableEq, Repr

/-- What R9, R51 and R264 ask of the parameters: one 256-byte aligned base for each engine, all different, at least one
engine, at least one cycle for each round; and a counter of at least one bit (log entry 14). -/
def Params.wf (p : Params) : Bool :=
  decide (p.hceBase.length = p.nEngines) && p.hceBase.all (fun b => decide (b % windowBytes = 0))
    && decide (p.hceBase.Nodup) && decide (1 ≤ p.nEngines) && decide (1 ≤ p.cyclesPerRound)
    && decide (1 ≤ p.counterBits)

end Sys2Proof.Config
end

