-- ==== Sys2Proof/Syntax.lean ====
section
/-!
DEFINITION. The instructions of the HCE, one constructor for each row of spec/opcode_table.json (R3: "Its "instructions"
are the host's bus accesses to its register window (42_bus_access.md) and the five commands written to its CMD register").
-/

namespace Sys2Proof

/-- The ten rows of spec/opcode_table.json. The first five are the CMD rows (R83): such an instruction is the 32-bit write
of its word to CMD (R80, log entry 10). The last five are the BUS rows (R89): 32-bit accesses to the register window. -/
inductive Instr where
  /-- NOP, R110. -/
  | nop
  /-- CLEAR, R111. -/
  | clear
  /-- APPEND b, R112; `b` is DATA = V[15:8] (R84). -/
  | append (b : Byte)
  /-- PACK, R120. -/
  | pack
  /-- START, R150. -/
  | start
  /-- WR_CMD, R190: write the word `v` to CMD. -/
  | wrCmd (v : Word)
  /-- RD_STATUS, R191. -/
  | rdStatus
  /-- RD_RESULT, R192. -/
  | rdResult
  /-- RD_W k, R194; `k` is off[5:2] (R88). -/
  | rdW (k : BitVec 4)
  /-- WR_W k, R195; `k` is off[5:2] (R88) and `v` the whole bus word. -/
  | wrW (k : BitVec 4) (v : Word)
deriving DecidableEq, Repr

end Sys2Proof
end

