-- ==== Sys2Proof/WellFormed.lean ====
section
/-!
DEFINITION. What can be ill formed: an access as the host puts it on the bus. `Access` is that raw access (any width, any
offset of the window, either direction); `Access.wellFormed` is the check of 20_memory.md R52 and R53, in its three parts.
The operands of `Instr` are bit vectors of exactly their field's width, so every term of it is well formed.
-/

namespace Sys2Proof

/-- The width of a bus access. R53: "A bus access of any other width (8, 16, 64 bits, or a burst)". -/
inductive Width where
  | bits (n : Nat)
  | burst
deriving DecidableEq, Repr

/-- One bus access of the host to the register window, as issued: nothing about it is checked yet.
`data` is the bus word of a write; a read transfers no word to the HCE and its `data` is ignored (log entry 11). -/
structure Access where
  /-- `true` for a write (WR of R87). -/
  write : Bool
  width : Width
  /-- The window offset off = addr - HCE_BASE, 0 to 0xFF (R51). -/
  off : BitVec 8
  data : Word
deriving DecidableEq, Repr

/-- R53: "Every access is 32 bits wide". -/
def Access.width32 (a : Access) : Bool := decide (a.width = .bits 32)

/-- R53: "at an offset that is a multiple of 4". -/
def Access.aligned (a : Access) : Bool := decide (a.off.extractLsb' 0 2 = 0#2)

/-- R52: the register map has an effect for this offset in this direction. -/
def Access.mapped (a : Access) : Bool :=
  let isW := decide (0x40 ≤ a.off.toNat) && decide (a.off.toNat ≤ 0x7F)
  if a.write then decide (a.off = 0x00#8) || isW
  else decide (a.off = 0x04#8) || decide (a.off = 0x08#8) || isW

/-- The access raises no AccessError (R199). -/
def Access.wellFormed (a : Access) : Bool := a.width32 && a.aligned && a.mapped

/-- Every instruction is well formed: each operand is a bit vector of its own field's width (R84, R88). -/
def Instr.wellFormed : Instr → Bool
  | .nop => true
  | .clear => true
  | .append _ => true
  | .pack => true
  | .start => true
  | .wrCmd _ => true
  | .rdStatus => true
  | .rdResult => true
  | .rdW _ => true
  | .wrW _ _ => true

end Sys2Proof
end

