-- ==== Sys2Proof/Decode.lean ====
section
/-!
DEFINITION. Decoding and encoding, from 30_encoding.md: the CMD word (R80 to R86) and the bus access descriptor (R87 to
R89). Both decoders are total and reject by name.
-/

namespace Sys2Proof

/-- A legal command word, decoded (R82). -/
inductive Command where
  | nop
  | clear
  | append (b : Byte)
  | pack
  | start
deriving DecidableEq, Repr

/-- The instruction a command is (R83's rows are the table's CMD rows). -/
def Command.toInstr : Command → Instr
  | .nop => .nop
  | .clear => .clear
  | .append b => .append b
  | .pack => .pack
  | .start => .start

/-- Why nothing was decoded. -/
inductive DecodeError where
  /-- The CMD word matches no row of R83 (R85). -/
  | illegalCommand (v : Word)
  /-- The access matches no row of R89, or is not 32 bits wide (R199). -/
  | accessError (off : BitVec 8)
deriving DecidableEq, Repr

/-- One row of R83 or R89: a value belongs to it iff `(v &&& mask) = pattern`. -/
structure Row (n : Nat) where
  pattern : BitVec n
  mask : BitVec n
deriving DecidableEq, Repr

/-- R83: "(V & mask) == match". -/
def Row.hit {n : Nat} (r : Row n) (v : BitVec n) : Bool := decide (v &&& r.mask = r.pattern)

/-! ### The command word, R80 and R83 -/

def rowNop : Row 32 := ⟨0x00000000#32, 0xFFFFFFFF#32⟩
def rowClear : Row 32 := ⟨0x00000001#32, 0xFFFFFFFF#32⟩
def rowAppend : Row 32 := ⟨0x00000002#32, 0xFFFF00FF#32⟩
def rowPack : Row 32 := ⟨0x00000003#32, 0xFFFFFFFF#32⟩
def rowStart : Row 32 := ⟨0x00000004#32, 0xFFFFFFFF#32⟩

/-- The rows of R83, in its order. -/
def cmdRows : List (Row 32) := [rowNop, rowClear, rowAppend, rowPack, rowStart]

/-- R80 and R84: DATA = V[15:8]. -/
def cmdData (v : Word) : Byte := v.extractLsb' 8 8

/-- R83 and R85: the command a word written to CMD is, or none for an illegal word. -/
def decodeCommand (v : Word) : Option Command :=
  if rowNop.hit v then some .nop
  else if rowClear.hit v then some .clear
  else if rowAppend.hit v then some (.append (cmdData v))
  else if rowPack.hit v then some .pack
  else if rowStart.hit v then some .start
  else none

/-- R80: the CMD word {RSV1, DATA, RSV0, OP} of an operation code and its data byte, with both reserved fields 0. -/
def cmdWord (op : BitVec 4) (data : Byte) : Word := (0#16 ++ data ++ 0#4 ++ op).cast rfl

/-- R82: the word of a command. -/
def encodeCommand : Command → Word
  | .nop => cmdWord 0x0#4 0#8
  | .clear => cmdWord 0x1#4 0#8
  | .append b => cmdWord 0x2#4 b
  | .pack => cmdWord 0x3#4 0#8
  | .start => cmdWord 0x4#4 0#8

/-! ### The bus access descriptor, R87 to R89 -/

def rowWrCmd : Row 9 := ⟨0x100#9, 0x1FF#9⟩
def rowRdStatus : Row 9 := ⟨0x004#9, 0x1FF#9⟩
def rowRdResult : Row 9 := ⟨0x008#9, 0x1FF#9⟩
def rowRdW : Row 9 := ⟨0x040#9, 0x1C3#9⟩
def rowWrW : Row 9 := ⟨0x140#9, 0x1C3#9⟩

/-- The rows of R89, in its order. -/
def busRows : List (Row 9) := [rowWrCmd, rowRdStatus, rowRdResult, rowRdW, rowWrW]

/-- R87: the descriptor {WR, off[7:0]}. -/
def descriptor (write : Bool) (off : BitVec 8) : BitVec 9 := (BitVec.ofBool write ++ off).cast rfl

/-- R88: k = off[5:2]. -/
def wIndex (d : BitVec 9) : BitVec 4 := d.extractLsb' 2 4

/-- R89: the bus access a descriptor is, with its bus word `data`, or none (R87: "A descriptor that matches no row of rule
R89 is an access error"). -/
def decodeBus (d : BitVec 9) (data : Word) : Option Instr :=
  if rowWrCmd.hit d then some (.wrCmd data)
  else if rowRdStatus.hit d then some .rdStatus
  else if rowRdResult.hit d then some .rdResult
  else if rowRdW.hit d then some (.rdW (wIndex d))
  else if rowWrW.hit d then some (.wrW (wIndex d) data)
  else none

/-- The instruction an access of the host is. R255, priority 1: the width, the offset and the direction decide, and an
access that raises AccessError is never decoded as a command. -/
def decodeAccess (a : Access) : Except DecodeError Instr :=
  if a.width32 then
    match decodeBus (descriptor a.write a.off) a.data with
    | some i => .ok i
    | none => .error (.accessError a.off)
  else .error (.accessError a.off)

/-! ### Words of an instruction -/

/-- An encoded instruction, in one of the two formats of the opcode table: a CMD word, or a bus descriptor with the bus
word that goes with it (0 for a read, which sends none). -/
inductive Encoded where
  | cmd (v : Word)
  | bus (desc : BitVec 9) (data : Word)
deriving DecidableEq, Repr

/-- Decode an encoded instruction of either format. -/
def decode : Encoded → Except DecodeError Instr
  | .cmd v =>
    match decodeCommand v with
    | some c => .ok c.toInstr
    | none => .error (.illegalCommand v)
  | .bus d data =>
    match decodeBus d data with
    | some i => .ok i
    | none => .error (.accessError (d.extractLsb' 0 8))

/-- R88: the offset 0x40 + 4*k of W[k], as the bits 01, k, 00. -/
def wOffset (k : BitVec 4) : BitVec 8 := (0b01#2 ++ k ++ 0b00#2).cast rfl

/-- The words of an instruction, from R80 and R82 (CMD) and from R52 and R87 (BUS). -/
def encode : Instr → Encoded
  | .nop => .cmd (encodeCommand .nop)
  | .clear => .cmd (encodeCommand .clear)
  | .append b => .cmd (encodeCommand (.append b))
  | .pack => .cmd (encodeCommand .pack)
  | .start => .cmd (encodeCommand .start)
  | .wrCmd v => .bus (descriptor true 0x00#8) v
  | .rdStatus => .bus (descriptor false 0x04#8) 0#32
  | .rdResult => .bus (descriptor false 0x08#8) 0#32
  | .rdW k => .bus (descriptor false (wOffset k)) 0#32
  | .wrW k v => .bus (descriptor true (wOffset k)) v

/-- The bits of an instruction as one number, bit 0 the least significant bit of its first word (log entry 9).
A CMD row has 32 bits. A BUS row has 9, which fill 16 with zeros, and the bus word, where there is one, is bits 47 to 16. -/
def encodedOfTable (nbits w : Nat) : Option Encoded :=
  if nbits = 32 then
    if w < 2 ^ 32 then some (.cmd (BitVec.ofNat 32 w)) else none
  else if nbits = 9 ∨ nbits = 16 ∨ nbits = 48 then
    if w < 2 ^ nbits ∧ w % 2 ^ 16 < 2 ^ 9 then
      some (.bus (BitVec.ofNat 9 (w % 2 ^ 16)) (BitVec.ofNat 32 (w / 2 ^ 16)))
    else none
  else none

/-- The instruction the decoder reads from a word of the opcode table (`nbits` tells the table's two formats apart). -/
def decodeTableWord (nbits w : Nat) : Option Instr :=
  match encodedOfTable nbits w with
  | none => none
  | some e =>
    match decode e with
    | .ok i => some i
    | .error _ => none

/-- The 32-bit access that carries an encoded instruction: a CMD word is written to CMD (R80), a descriptor is itself an
access (R87). -/
def Encoded.toAccess : Encoded → Access
  | .cmd v => { write := true, width := .bits 32, off := 0x00#8, data := v }
  | .bus d data => { write := d.msb, width := .bits 32, off := d.extractLsb' 0 8, data := data }

end Sys2Proof
end

