-- ==== Sys2Proof/Machine/State.lean ====
section
/-!
DEFINITION. The machine's state, as plain data: one HCE instance (10_state.md R20, R34) and, beside it, what the outside
world is about to do to it (the host's accesses in program order, the order of the agents' turns) and the words its reads
have returned.
-/

namespace Sys2Proof.Machine

/-- The four working registers (R21). -/
structure Working where
  a : Word
  b : Word
  c : Word
  d : Word
deriving DecidableEq, Repr

/-- The complete state of one HCE instance (R20). S, K and IV are constants (R31) and stand in Machine/Tables.lean; MFULL
(R29) is computed, and CMD (R30) stores nothing. -/
structure Hce where
  /-- A run is in progress (R28). -/
  busy : Bool
  /-- A run has completed and none was started since (R28). -/
  done : Bool
  /-- Sticky pack error (R28, R253). -/
  perr : Bool
  /-- Sticky command error (R28, R251). -/
  cerr : Bool
  /-- A, B, C, D. -/
  work : Working
  /-- W[0..15], the block registers (R22). -/
  w : Vector Word 16
  /-- MSG[0..55], the message buffer (R23). -/
  msg : Vector Byte 56
  /-- LEN (R24). -/
  len : BitVec 6
  /-- RND (R25). -/
  rnd : BitVec 7
  /-- RESULT (R26). -/
  result : Word
deriving DecidableEq, Repr

/-- What the host does next: one bus access, or `poll` (R92): read STATUS again and again until bit 0 of the word read is 0. -/
inductive HostAction where
  | access (a : Access)
  | poll
deriving DecidableEq, Repr

/-- Whose step is next (R14): the HOST's, the ENGINE's, or the platform's reset (R280). -/
inductive Turn where
  | host
  | engine
  | reset
deriving DecidableEq, Repr

/-- One HCE instance with its inputs. -/
structure State where
  hce : Hce
  /-- The HOST's actions not yet performed, in program order (R61). The model's own (log entry 5). -/
  pending : List HostAction
  /-- The order in which the agents take their next steps (R14: any order). The model's own (log entry 1). -/
  schedule : List Turn
  /-- The words that reads have returned to the host, the latest first. The model's own (log entry 6). -/
  reads : List Word
deriving DecidableEq, Repr

/-- Why the machine stops. -/
inductive Fault where
  /-- `AccessError(off)` (R252, R199): raised by a bus access that is not 32 bits wide, not aligned, or that the register
  map does not list in its direction. R252: "A model treats an AccessError as a fault of the run". Safe. -/
  | accessError (off : BitVec 8)
  /-- Raised by an ENGINE step with BUSY = 1 and RND > 63, a state that R33 (I1) says no run reaches and in which R160 has
  no round to perform (log entry 12). Safe. -/
  | roundOutOfRange
deriving DecidableEq, Repr

/-- Why an instruction has no meaning. -/
inductive Refusal where
  /-- Raised by an arm of `exec` whose instruction has no meaning yet; no arm raises it now. Safe. -/
  | notModelled (mnemonic : String)
deriving DecidableEq, Repr

/-- What a meaning answers. -/
abbrev Result := Host.Outcome State Fault Refusal

/-- The HCE after reset (R34, R280). R34 gives A to D and MSG no value ("A model may take any value"): zero here, a DESIGN
CHOICE (log entries 3 and 4). -/
def Hce.reset : Hce :=
  { busy := false
    done := false
    perr := false
    cerr := false
    work := { a := 0#32, b := 0#32, c := 0#32, d := 0#32 }
    w := Vector.replicate 16 0#32
    msg := Vector.replicate 56 0#8
    len := 0#6
    rnd := 0#7
    result := 0x00000000#32 }

/-- The machine right after reset: the HCE as R34 says, and nothing yet asked of it (log entry 5). -/
def State.reset : State :=
  { hce := Hce.reset, pending := [], schedule := [], reads := [] }

end Sys2Proof.Machine
end

