-- ==== Sys2Proof/Machine/Flags.lean ====
section
/-!
DEFINITION. The flags and the STATUS word (10_state.md R28, R29), and the error labels of R254.
-/

namespace Sys2Proof.Machine

/-- R28 and R29: MFULL is not stored; it reads 1 iff LEN = 56. -/
def Hce.mfull (h : Hce) : Bool := decide (h.len = 56#6)

/-- R29: `{9'b0, RND[6:0], 2'b0, LEN[5:0], 3'b0, MFULL, CERR, PERR, DONE, BUSY}`. -/
def Hce.statusWord (h : Hce) : Word :=
  (0#9 ++ h.rnd ++ 0#2 ++ h.len ++ 0#3 ++ BitVec.ofBool h.mfull ++ BitVec.ofBool h.cerr ++ BitVec.ofBool h.perr
    ++ BitVec.ofBool h.done ++ BitVec.ofBool h.busy).cast rfl

/-- R251: `set CERR`. -/
def Hce.setCerr (h : Hce) : Hce := { h with cerr := true }

/-- R253: `set PERR`. -/
def Hce.setPerr (h : Hce) : Hce := { h with perr := true }

/-- R258: both error flags cleared (by CLEAR alone, but for reset). -/
def Hce.clearErrors (h : Hce) : Hce := { h with perr := false, cerr := false }

/-- The error kinds of R254. -/
inductive ErrorKind where
  | packError
  | commandError
  | accessError
deriving DecidableEq, Repr

/-- R254: the spec's labels 1 to 3. They are visible in no register. -/
def ErrorKind.code : ErrorKind → Nat
  | .packError => 1
  | .commandError => 2
  | .accessError => 3

/-- R254, "how reported": an error that a STATUS flag reports is read there; an AccessError leaves nothing in the HCE. -/
def ErrorKind.reportedIn (h : Hce) : ErrorKind → Bool
  | .packError => h.perr
  | .commandError => h.cerr
  | .accessError => false

/-- R254: the kind of a fault that stops the run (`roundOutOfRange` is no error of the HCE, log entry 12). -/
def Fault.errorKind : Fault → Option ErrorKind
  | .accessError _ => some .accessError
  | .roundOutOfRange => none

end Sys2Proof.Machine
end

