-- ==== Sys2Proof/Machine/Operands.lean ====
section
/-!
DEFINITION. The forms in which operands are read and assembled: the rotate (R12), bytes of words in little-endian order
(R55, R56), and the window offset of a host address (R51).
-/

namespace Sys2Proof.Machine

/-- R12: `((v << n) | (v >> (32 - n))) mod 2^32`, for 0 < n < 32. -/
def rotl32 (v : Word) (n : Nat) : Word := (v <<< n) ||| (v >>> (32 - n))

/-- R55 and R56: byte `j` (0 to 3) of a word in little-endian order, bits `[8j+7:8j]`. -/
def byteOf (v : Word) (j : Nat) : Byte := v.extractLsb' (8 * j) 8

/-- The four bytes of a word, the least significant first. -/
def leBytes (v : Word) : List Byte := [byteOf v 0, byteOf v 1, byteOf v 2, byteOf v 3]

/-- R56: `le_word(P, k) = {P[4k+3], P[4k+2], P[4k+1], P[4k]}` (the buffer `p` has 64 bytes and k < 16). -/
def leWord (p : List Byte) (k : Nat) : Word :=
  (p.getD (4 * k + 3) 0#8 ++ p.getD (4 * k + 2) 0#8 ++ p.getD (4 * k + 1) 0#8 ++ p.getD (4 * k) 0#8).cast rfl

/-- R51: the window offset a host address selects, or none for an address outside the window. -/
def windowOffset (base addr : Nat) : Option (BitVec 8) :=
  if base ≤ addr ∧ addr < base + Config.windowBytes then some (BitVec.ofNat 8 (addr - base)) else none

end Sys2Proof.Machine
end

