-- ==== Sys2Proof/Machine/Ops.lean ====
section
/-!
DEFINITION. The shared operations: reading and writing registers, what a read returns to the host, turning a command or a
write away, the bus error, and reset. The HCE has no trap: "It never transfers control, because it has none to transfer,
and it saves no state" (60_exceptions.md R250); `reject` and `raiseAccessError` are its two error reports.
-/

namespace Sys2Proof.Machine

/-- The state with another HCE; the host's side stays. -/
def State.withHce (s : State) (h : Hce) : State := { s with hce := h }

/-- W[k] (R22). -/
def Hce.readW (h : Hce) (k : BitVec 4) : Word := h.w[k.toNat]

/-- W[k] <- v (R22). -/
def Hce.writeW (h : Hce) (k : BitVec 4) (v : Word) : Hce := { h with w := h.w.set k.toNat v }

/-- The message: the byte string MSG[0..LEN-1] (R15, R23). -/
def Hce.message (h : Hce) : List Byte := h.msg.toList.take h.len.toNat

/-- A read returns a word to the host and changes nothing in the HCE (R58). -/
def State.returnData (s : State) (v : Word) : State := { s with reads := v :: s.reads }

/-- A rejected command or write: CERR is set, and nothing else changes (R251, R257). -/
def reject (s : State) : Result := .next (s.withHce s.hce.setCerr)

/-- R13 and R252: the access ends with an error response and no state change, and the run stops. -/
def raiseAccessError (off : BitVec 8) : Result := .fault (.accessError off)

/-- R280 and R281: reset, in any state. The HCE takes the values of R34 and a run in progress is abandoned; the host's side
is not the HCE's and stays (log entry 5). -/
def State.resetHce (s : State) : State := s.withHce Hce.reset

/-- R52, the column "read": the register at an offset, or none where a read is an access error. -/
def Hce.readRegister (h : Hce) (off : BitVec 8) : Option Word :=
  if off = 0x04#8 then some h.statusWord
  else if off = 0x08#8 then some h.result
  else if off.extractLsb' 6 2 = 0b01#2 ∧ off.extractLsb' 0 2 = 0b00#2 then some (h.readW (off.extractLsb' 2 4))
  else none

/-- R55: the window described as bytes. Byte `off + j` of a register at offset `off` is bits `[8j+7:8j]` of it; an offset in
no readable register has none. No access of the HCE reads a byte (R53); this is a description of the window. -/
def Hce.windowByte (h : Hce) (off : BitVec 8) : Option Byte :=
  match h.readRegister ((off.extractLsb' 2 6 ++ 0b00#2).cast rfl) with
  | some v => some (byteOf v (off.extractLsb' 0 2).toNat)
  | none => none

end Sys2Proof.Machine
end

