-- ==== Sys2Proof/Machine/Tables.lean ====
section
/-!
DEFINITION. The constant tables (10_state.md R31; 41_compression.md R142 to R144), as literal data, and the schedule and the
round functions (R145, R146).
-/

namespace Sys2Proof.Machine

/-! ### S, R142: four rows of sixteen -/

def sRow0 : List Nat := [7, 12, 17, 22, 7, 12, 17, 22, 7, 12, 17, 22, 7, 12, 17, 22]
def sRow1 : List Nat := [5, 9, 14, 20, 5, 9, 14, 20, 5, 9, 14, 20, 5, 9, 14, 20]
def sRow2 : List Nat := [4, 11, 16, 23, 4, 11, 16, 23, 4, 11, 16, 23, 4, 11, 16, 23]
def sRow3 : List Nat := [6, 10, 15, 21, 6, 10, 15, 21, 6, 10, 15, 21, 6, 10, 15, 21]

/-- S[0..63]. -/
def sTable : List Nat := sRow0 ++ sRow1 ++ sRow2 ++ sRow3

/-- S[i], R142: the left-rotate amount of round i. -/
def S (i : Fin 64) : Nat := sTable[i.val]'(Nat.lt_of_lt_of_eq i.isLt (by decide))

/-! ### K, R143: eight rows of eight -/

def kRow0 : List Word :=
  [0xd76aa478#32, 0xe8c7b756#32, 0x242070db#32, 0xc1bdceee#32, 0xf57c0faf#32, 0x4787c62a#32, 0xa8304613#32, 0xfd469501#32]
def kRow1 : List Word :=
  [0x698098d8#32, 0x8b44f7af#32, 0xffff5bb1#32, 0x895cd7be#32, 0x6b901122#32, 0xfd987193#32, 0xa679438e#32, 0x49b40821#32]
def kRow2 : List Word :=
  [0xf61e2562#32, 0xc040b340#32, 0x265e5a51#32, 0xe9b6c7aa#32, 0xd62f105d#32, 0x02441453#32, 0xd8a1e681#32, 0xe7d3fbc8#32]
def kRow3 : List Word :=
  [0x21e1cde6#32, 0xc33707d6#32, 0xf4d50d87#32, 0x455a14ed#32, 0xa9e3e905#32, 0xfcefa3f8#32, 0x676f02d9#32, 0x8d2a4c8a#32]
def kRow4 : List Word :=
  [0xfffa3942#32, 0x8771f681#32, 0x6d9d6122#32, 0xfde5380c#32, 0xa4beea44#32, 0x4bdecfa9#32, 0xf6bb4b60#32, 0xbebfbc70#32]
def kRow5 : List Word :=
  [0x289b7ec6#32, 0xeaa127fa#32, 0xd4ef3085#32, 0x04881d05#32, 0xd9d4d039#32, 0xe6db99e5#32, 0x1fa27cf8#32, 0xc4ac5665#32]
def kRow6 : List Word :=
  [0xf4292244#32, 0x432aff97#32, 0xab9423a7#32, 0xfc93a039#32, 0x655b59c3#32, 0x8f0ccc92#32, 0xffeff47d#32, 0x85845dd1#32]
def kRow7 : List Word :=
  [0x6fa87e4f#32, 0xfe2ce6e0#32, 0xa3014314#32, 0x4e0811a1#32, 0xf7537e82#32, 0xbd3af235#32, 0x2ad7d2bb#32, 0xeb86d391#32]

/-- K[0..63]. -/
def kTable : List Word := kRow0 ++ kRow1 ++ kRow2 ++ kRow3 ++ kRow4 ++ kRow5 ++ kRow6 ++ kRow7

/-- K[i], R143: the round-add constant of round i. -/
def K (i : Fin 64) : Word := kTable[i.val]'(Nat.lt_of_lt_of_eq i.isLt (by decide))

/-- IV[0..3], R144: the values (A, B, C, D) are seeded with. -/
def IV : Working := { a := 0x67452301#32, b := 0xefcdab89#32, c := 0x98badcfe#32, d := 0x10325476#32 }

/-- g(i), R145: the block word that round i reads. -/
def g (i : Fin 64) : Fin 16 :=
  if i.val < 16 then Fin.ofNat 16 i.val
  else if i.val < 32 then Fin.ofNat 16 (5 * i.val + 1)
  else if i.val < 48 then Fin.ofNat 16 (3 * i.val + 5)
  else Fin.ofNat 16 (7 * i.val)

/-- fn(i, B, C, D), R146: F, G, H and I on the four ranges of i. -/
def fn (i : Fin 64) (b c d : Word) : Word :=
  if i.val < 16 then (b &&& c) ||| (~~~b &&& d)
  else if i.val < 32 then (d &&& b) ||| (~~~d &&& c)
  else if i.val < 48 then b ^^^ c ^^^ d
  else c ^^^ (b ||| ~~~d)

end Sys2Proof.Machine
end

