-- ==== Sys2Proof/Machine/Compression.lean ====
section
/-!
DEFINITION. The compression datapath (41_compression.md): one round (R147), the reference function `compress` (R141), the
command START (R150), and the ENGINE's step ROUND with the completion in the same step (R160, R161).
-/

namespace Sys2Proof.Machine

/-- R147: x = f + A + K[i] + W[g(i)]. -/
def roundSum (i : Fin 64) (q : Working) (w : Vector Word 16) : Word :=
  fn i q.b q.c q.d + q.a + K i + w[(g i).val]

/-- R147: one round, `(A, B, C, D) <- (D, B + rotl32(x, S[i]), B, C)`, with the `B +` of 90_conflicts.md C1. -/
def roundOf (i : Fin 64) (q : Working) (w : Vector Word 16) : Working :=
  { a := q.d, b := q.b + rotl32 (roundSum i q w) (S i), c := q.b, d := q.c }

/-- (A, B, C, D) after the first `n` rounds over the block `w`, from IV (R141); there are 64 rounds. -/
def rounds (w : Vector Word 16) : Nat → Working
  | 0 => IV
  | n + 1 => if lt : n < 64 then roundOf ⟨n, lt⟩ (rounds w n) w else rounds w n

/-- R141: the reference function; R148: the returned word is A_final + IV[0]. -/
def compress (w : Vector Word 16) : Word := (rounds w 64).a + IV.a

/-- R150, an accepted START. -/
def Hce.beginRun (h : Hce) : Hce := { h with work := IV, rnd := 0#7, busy := true, done := false }

/-- R161: RESULT <- A + IV[0], BUSY <- 0, DONE <- 1. -/
def Hce.complete (h : Hce) : Hce := { h with result := h.work.a + IV.a, busy := false, done := true }

/-- R160: round i = RND, RND <- i + 1, and the completion in the same step if i = 63. -/
def Hce.roundStep (h : Hce) (i : Fin 64) : Hce :=
  let h1 := { h with work := roundOf i h.work h.w, rnd := BitVec.ofNat 7 (i.val + 1) }
  if i.val = 63 then h1.complete else h1

/-- START, R150: rejected with CERR if BUSY = 1 or PERR = 1. -/
def execStart (s : State) : Result :=
  if s.hce.busy || s.hce.perr then reject s else .next (s.withHce s.hce.beginRun)

/-- ROUND, R160, the ENGINE's step: enabled iff BUSY = 1; an ENGINE turn while BUSY = 0 performs nothing (R266, log entry 2).
It has no encoding (R90). -/
def engineRound (s : State) : Result :=
  if s.hce.busy then
    if lt : s.hce.rnd.toNat < 64 then .next (s.withHce (s.hce.roundStep ⟨s.hce.rnd.toNat, lt⟩))
    else .fault .roundOutOfRange
  else .next s

end Sys2Proof.Machine
end

