-- ==== Sys2Proof/Machine/Packer.lean ====
section
/-!
DEFINITION. The packer commands NOP, CLEAR, APPEND and PACK (40_packer.md), and the source's function `pack` (R121).
-/

namespace Sys2Proof.Machine

/-- R121: the padded 64-byte buffer of a message of at most 55 bytes: the message bytes verbatim, the terminator 0x80, zeros
up to byte offset 56, the bit length as a 32-bit little-endian value, and four zero bytes. -/
def pad (m : List Byte) : List Byte :=
  m ++ [0x80#8] ++ List.replicate (55 - m.length) 0x00#8 ++ leBytes (BitVec.ofNat 32 (8 * m.length))
    ++ List.replicate 4 0x00#8

/-- R56 and R120: the block of sixteen little-endian words of a 64-byte buffer. -/
def blockOf (p : List Byte) : Vector Word 16 := Vector.ofFn fun k => leWord p k.val

/-- The source's `pack(message)` (R120, R121): it fails iff the message has 56 bytes or more. -/
def packBlock (m : List Byte) : Option (Vector Word 16) :=
  if m.length < 56 then some (blockOf (pad m)) else none

/-- R111: LEN <- 0, PERR <- 0, CERR <- 0. -/
def Hce.clearMessage (h : Hce) : Hce := { h.clearErrors with len := 0#6 }

/-- R112: MSG[LEN] <- b and LEN <- LEN + 1 if LEN < 56, and nothing otherwise. -/
def Hce.appendByte (h : Hce) (b : Byte) : Hce :=
  if lt : h.len.toNat < 56 then { h with msg := h.msg.set h.len.toNat b lt, len := h.len + 1#6 } else h

/-- R120 for a message that fits: W <- the block of pad(MSG, LEN). -/
def Hce.packMessage (h : Hce) : Hce := { h with w := blockOf (pad h.message) }

/-- NOP, R110: no state changes. -/
def execNop (s : State) : Result := .next s

/-- CLEAR, R111. Accepted in every state. -/
def execClear (s : State) : Result := .next (s.withHce s.hce.clearMessage)

/-- APPEND b, R112. Accepted in every state. -/
def execAppend (b : Byte) (s : State) : Result := .next (s.withHce (s.hce.appendByte b))

/-- PACK, R120: BUSY first (CERR), then LEN = 56 (PERR), as R255 orders them. LEN >= 56 is LEN = 56 in every reachable state
(R33, I5; log entry 13). -/
def execPack (s : State) : Result :=
  if s.hce.busy then reject s
  else if s.hce.len.toNat < 56 then .next (s.withHce s.hce.packMessage)
  else .next (s.withHce s.hce.setPerr)

end Sys2Proof.Machine
end

