-- ==== Sys2Proof/Machine/BusAccess.lean ====
section
/-!
DEFINITION. The host's bus accesses (42_bus_access.md): WR_CMD, RD_STATUS, RD_RESULT, RD_W and WR_W.
-/

namespace Sys2Proof.Machine

/-- WR_CMD, R190: the word is matched against R83 and the command it is performed; an illegal word sets CERR (R85). -/
def execWrCmd (v : Word) (s : State) : Result :=
  match decodeCommand v with
  | some .nop => execNop s
  | some .clear => execClear s
  | some (.append b) => execAppend b s
  | some .pack => execPack s
  | some .start => execStart s
  | none => reject s

/-- RD_STATUS, R191. -/
def execRdStatus (s : State) : Result := .next (s.returnData s.hce.statusWord)

/-- RD_RESULT, R192. -/
def execRdResult (s : State) : Result := .next (s.returnData s.hce.result)

/-- RD_W k, R194; allowed while BUSY = 1. -/
def execRdW (k : BitVec 4) (s : State) : Result := .next (s.returnData (s.hce.readW k))

/-- WR_W k, R195: rejected with CERR while BUSY = 1. -/
def execWrW (k : BitVec 4) (v : Word) (s : State) : Result :=
  if s.hce.busy then reject s else .next (s.withHce (s.hce.writeW k v))

end Sys2Proof.Machine
end

