-- ==== Sys2Proof/Machine/Dispatch.lean ====
section
/-!
DEFINITION. One arm for each constructor of Instr.
-/

namespace Sys2Proof.Machine

def exec (i : Instr) (s : State) : Host.Outcome State Fault Refusal :=
  match i with
  | .nop => Sys2Proof.Machine.execNop s
  | .clear => Sys2Proof.Machine.execClear s
  | .append b => Sys2Proof.Machine.execAppend b s
  | .pack => Sys2Proof.Machine.execPack s
  | .start => Sys2Proof.Machine.execStart s
  | .wrCmd v => Sys2Proof.Machine.execWrCmd v s
  | .rdStatus => Sys2Proof.Machine.execRdStatus s
  | .rdResult => Sys2Proof.Machine.execRdResult s
  | .rdW k => Sys2Proof.Machine.execRdW k s
  | .wrW k v => Sys2Proof.Machine.execWrW k v s

end Sys2Proof.Machine
end

