-- ==== Sys2Proof/Machine/Agents.lean ====
section
/-!
DEFINITION. The turns of the two agents and of the platform's reset (00_scope.md R14, 20_memory.md R57 and R61).
-/

namespace Sys2Proof.Machine

/-- A bus access reaches the HCE: the instruction it is, or AccessError (R199, R255). -/
def performAccess (a : Access) (s : State) : Result :=
  match decodeAccess a with
  | .ok i => exec i s
  | .error _ => raiseAccessError a.off

/-- R92, `poll`: `L: rd 0x04 -> rN ; if rN[0] = 1 goto L`. One STATUS read; the host stays at the poll while bit 0 of the word
read is 1, and goes on to `rest` otherwise. -/
def pollStatus (rest : List HostAction) (s : State) : Result :=
  if s.hce.statusWord.getLsbD 0 then exec .rdStatus s else exec .rdStatus { s with pending := rest }

/-- The HOST's next step: its next action in program order, or nothing if it has none (log entry 2). -/
def hostTurn (s : State) : Result :=
  match s.pending with
  | [] => .next s
  | .access a :: rest => performAccess a { s with pending := rest }
  | .poll :: rest => pollStatus rest s

/-- The step of the agent whose turn it is. -/
def takeTurn (t : Turn) (s : State) : Result :=
  match t with
  | .host => hostTurn s
  | .engine => engineRound s
  | .reset => .next s.resetHce

/-- Whose turn it is once the schedule is used up: the ENGINE's while BUSY = 1 (so that a run ends: R297's weak fairness), and
the HOST's otherwise (log entry 2). -/
def defaultTurn (s : State) : Turn := if s.hce.busy then .engine else .host

end Sys2Proof.Machine
end

