-- ==== Sys2Proof/Machine/Step.lean ====
section
/-!
DEFINITION. One step of the machine: one atomic step of one agent (R14), and how the host puts an instruction next.
-/

namespace Sys2Proof.Machine

/-- One step: the next turn of the schedule, or the default turn when the schedule is used up. -/
def step (s : State) : Host.Outcome State Fault Refusal :=
  match s.schedule with
  | t :: rest => takeTurn t { s with schedule := rest }
  | [] => takeTurn (defaultTurn s) s

/-- The state in which the very next step is the HOST's access that carries the table word `w` (log entry 8): the access is
put in front of the host's actions and a HOST turn in front of the schedule. A word that is no encoding changes nothing. -/
def State.withFetchWord (s : State) (nbits w : Nat) : State :=
  match encodedOfTable nbits w with
  | some e => { s with pending := .access e.toAccess :: s.pending, schedule := .host :: s.schedule }
  | none => s

end Sys2Proof.Machine
end

