-- ==== Sys2Proof/Machine/Platform.lean ====
section
/-!
DEFINITION. A platform of several independent HCE engines, each with its own window and its own state (10_state.md R35,
20_memory.md R51, 60_exceptions.md R264).
-/

namespace Sys2Proof.Machine

/-- One engine of the platform, at its HCE_BASE. -/
structure PlatformEngine where
  base : Nat
  machine : State
deriving DecidableEq, Repr

/-- The engines of a platform: "they have no identifiers, no shared mutable state and no inter-instance signals" (R264). -/
structure Platform where
  engines : List PlatformEngine
deriving DecidableEq, Repr

/-- The platform has the bases its parameters name (R9). -/
def Platform.wf (p : Config.Params) (pl : Platform) : Bool :=
  p.wf && decide (pl.engines.map PlatformEngine.base = p.hceBase)

/-- The platform right after reset. -/
def Platform.reset (p : Config.Params) : Platform :=
  { engines := p.hceBase.map fun b => { base := b, machine := State.reset } }

/-- Why a platform is outside the spec. -/
inductive PlatformRefusal where
  /-- Parameters that R9, R51 or R264 exclude. -/
  | badParameters
  /-- R67: "Two bus masters sharing an instance are outside this spec: a model refuses such a configuration". -/
  | severalHosts
  /-- R62: a platform that merges, reorders, repeats or caches the host's accesses. -/
  | unorderedDelivery
deriving DecidableEq, Repr

/-- The platform of a set of parameters, right after reset, or why there is none. -/
def Platform.boot (p : Config.Params) : Except PlatformRefusal Platform :=
  if !p.wf then .error .badParameters
  else if p.hostsPerEngine ≠ 1 then .error .severalHosts
  else if !p.orderedDelivery then .error .unorderedDelivery
  else .ok (Platform.reset p)

/-- A host access to the address `addr` is the last action of the engine whose window holds `addr` (R51); an engine whose
window does not hold it is not concerned. -/
def PlatformEngine.issue (write : Bool) (width : Width) (addr : Nat) (data : Word) (e : PlatformEngine) : PlatformEngine :=
  match windowOffset e.base addr with
  | some off =>
    { e with machine := { e.machine with
        pending := e.machine.pending ++ [.access { write := write, width := width, off := off, data := data }] } }
  | none => e

/-- A host access to the address `addr` on the platform. -/
def Platform.issue (write : Bool) (width : Width) (addr : Nat) (data : Word) (pl : Platform) : Platform :=
  { engines := pl.engines.map (PlatformEngine.issue write width addr data) }

/-- A step of engine `n`; the other engines take none. -/
def Platform.stepEngine (n : Nat) (pl : Platform) : Host.Outcome Platform Fault Refusal :=
  match pl.engines[n]? with
  | none => .next pl
  | some e =>
    match step e.machine with
    | .next t => .next { engines := pl.engines.set n { e with machine := t } }
    | .fault r => .fault r
    | .refused r => .refused r

end Sys2Proof.Machine
end

