-- ==== Sys2Proof/Machine/HostAsm.lean ====
section
/-!
DEFINITION. The host-side assembly of 30_encoding.md (R91, R92): each form and what it expands to, as actions of the host.
The host's registers, labels and arithmetic "belong to the host's own instruction set, which is outside this spec" (R91):
the `-> rN` of a read is the word it adds to `State.reads` (log entry 6).
-/

namespace Sys2Proof.Machine

/-- The two primitive forms of R91 and the pseudo-instructions of R92. -/
inductive HostAsm where
  | wr (off : BitVec 8) (value : Word)
  | rd (off : BitVec 8)
  | cmdNop
  | cmdClear
  | cmdAppend (b : Byte)
  | cmdAppendStr (bs : List Byte)
  | cmdPack
  | cmdStart
  | wrW (k : BitVec 4) (value : Word)
  | rdW (k : BitVec 4)
  | rdStatus
  | rdResult
  | poll
deriving DecidableEq, Repr

/-- R91: `BusWrite(OFF, VALUE)`, 32 bits. -/
def busWrite (off : BitVec 8) (value : Word) : HostAction :=
  .access { write := true, width := .bits 32, off := off, data := value }

/-- R91: `BusRead(OFF)`, 32 bits. -/
def busRead (off : BitVec 8) : HostAction :=
  .access { write := false, width := .bits 32, off := off, data := 0#32 }

/-- R92: `wr 0x00, (BYTE << 8) | 0x00000002`. -/
def appendWord (b : Byte) : Word := (b.zeroExtend 32 <<< 8) ||| 0x00000002#32

/-- R92: `0x40 + 4*K`. -/
def wOffsetOf (k : BitVec 4) : BitVec 8 := 0x40#8 + 4#8 * k.zeroExtend 8

/-- R91 and R92: the expansion of each form. -/
def HostAsm.expand : HostAsm → List HostAction
  | .wr off v => [busWrite off v]
  | .rd off => [busRead off]
  | .cmdNop => [busWrite 0x00#8 0x00000000#32]
  | .cmdClear => [busWrite 0x00#8 0x00000001#32]
  | .cmdAppend b => [busWrite 0x00#8 (appendWord b)]
  | .cmdAppendStr bs => bs.map fun b => busWrite 0x00#8 (appendWord b)
  | .cmdPack => [busWrite 0x00#8 0x00000003#32]
  | .cmdStart => [busWrite 0x00#8 0x00000004#32]
  | .wrW k v => [busWrite (wOffsetOf k) v]
  | .rdW k => [busRead (wOffsetOf k)]
  | .rdStatus => [busRead 0x04#8]
  | .rdResult => [busRead 0x08#8]
  | .poll => [.poll]

/-- A straight-line host program: the expansions, one after another. -/
def assemble (p : List HostAsm) : List HostAction := p.flatMap HostAsm.expand

/-- R193 and R113: CLEAR, APPEND of each byte of m in order. -/
def loadMessage (m : List Byte) : List HostAsm := [.cmdClear, .cmdAppendStr m]

/-- R193: PACK, START, STATUS until BUSY = 0, RESULT. -/
def runBlock : List HostAsm := [.cmdPack, .cmdStart, .poll, .rdResult]

end Sys2Proof.Machine
end

