-- ==== Sys2Proof/Machine/SearchDriver.lean ====
section
/-!
DEFINITION. The host's reference procedure (43_host_search_driver.md): the source's `search` and `solve` as functions
(R221 to R231), and one host that runs a search on the HCE (R224). It is host software and adds nothing to the HCE
(00_scope.md R6, R220). Machine/SplitSearch.lean splits a search over several workers (R234).
-/

namespace Sys2Proof.Machine

/-- The error kinds of R227 to R229, and the variant that is outside the contract of R226. -/
inductive SearchError where
  /-- R227, "reported with the offending input echoed back". -/
  | seedTooLong (seed : List Byte)
  /-- R228. -/
  | messageOverflow
  /-- R229. -/
  | counterOverflow
  /-- R226: a variant other than 1 and 2, which D25 has a model refuse. -/
  | variantOutsideContract (variant : Nat)
deriving DecidableEq, Repr

/-! ### The seed, R227 -/

/-- A constructed seed. R227's precondition holds of every one: it is "enforced at construction time, not per call", so the
functions below take a `Seed` and check nothing. -/
structure Seed where
  bytes : List Byte
  short : bytes.length ≤ Config.seedMax
deriving DecidableEq, Repr

/-- R227: the one place where a seed is checked, its construction. -/
def Seed.construct (bytes : List Byte) : Except SearchError Seed :=
  if short : bytes.length ≤ Config.seedMax then .ok { bytes := bytes, short := short } else .error (.seedTooLong bytes)

/-! ### The functions, R221 to R226 -/

/-- R222: the ASCII code of a decimal digit. -/
def digitByte (d : Nat) : Byte := BitVec.ofNat 8 (0x30 + d)

/-- The decimal digits of `i` in front of `acc`, the most significant first; `fuel` bounds their number. -/
def decimalDigits : Nat → Nat → List Byte → List Byte
  | 0, _, acc => acc
  | fuel + 1, i, acc =>
    if i / 10 = 0 then digitByte (i % 10) :: acc else decimalDigits fuel (i / 10) (digitByte (i % 10) :: acc)

/-- R222: `decimal_text(i)` for i >= 1 (i has at most i digits). -/
def decimalText (i : Nat) : List Byte := decimalDigits i i []

/-- R223: `candidate <- seed || decimal_text(i)`. -/
def candidate (seed : Seed) (i : Nat) : List Byte := seed.bytes ++ decimalText i

/-- R225: `(word & mask) == 0`, on the raw RESULT word. -/
def maskPasses (word mask : Word) : Bool := decide (word &&& mask = 0#32)

/-- What trying one counter answers. -/
inductive Verdict where
  | found
  | miss
  /-- R228: the candidate has 56 bytes or more. -/
  | overflow
deriving DecidableEq, Repr

/-- R223, the body of the loop: the candidate of counter `i`. -/
def tryCounter (seed : Seed) (mask : Word) (i : Nat) : Verdict :=
  match packBlock (candidate seed i) with
  | none => .overflow
  | some w => if maskPasses (compress w) mask then .found else .miss

/-- R223: the loop from counter `i` on, with `left` counters after it. -/
def searchLoop (seed : Seed) (mask : Word) : Nat → Nat → Except SearchError Nat
  | left, i =>
    match tryCounter seed mask i with
    | .overflow => .error .messageOverflow
    | .found => .ok i
    | .miss =>
      match left with
      | 0 => .error .counterOverflow
      | n + 1 => searchLoop seed mask n (i + 1)

/-- R223 with an explicit upper bound on the counter (at least 1), which R231 lets the host choose. -/
def searchUpTo (bound : Nat) (seed : Seed) (mask : Word) : Except SearchError Nat := searchLoop seed mask (bound - 1) 1

/-- The last counter of COUNTER_BITS bits, R223: `2^COUNTER_BITS - 1`. -/
def lastCounter (counterBits : Nat) : Nat := 2 ^ counterBits - 1

/-- R221 and R223: `search(seed, mask)` with a counter of `counterBits` bits (log entry 14). -/
def search (counterBits : Nat) (seed : Seed) (mask : Word) : Except SearchError Nat :=
  searchUpTo (lastCounter counterBits) seed mask

/-- R226: the mask of a variant. -/
def variantMask (variant : Nat) : Except SearchError Word :=
  match variant with
  | 1 => .ok Config.mask1
  | 2 => .ok Config.mask2
  | v => .error (.variantOutsideContract v)

/-- R226: `solve(seed, variant)`, on a constructed seed. -/
def solve (counterBits : Nat) (seed : Seed) (variant : Nat) : Except SearchError (List Byte) :=
  match variantMask variant with
  | .error e => .error e
  | .ok mask =>
    match search counterBits seed mask with
    | .error e => .error e
    | .ok i => .ok (decimalText i)

/-- A host that constructs a seed from bytes and calls `solve` on it once (95_test_vectors.md L2-S5). -/
def constructAndSolve (counterBits : Nat) (bytes : List Byte) (variant : Nat) : Except SearchError (List Byte) :=
  match Seed.construct bytes with
  | .error e => .error e
  | .ok seed => solve counterBits seed variant

/-! ### A search run on the HCE, R224 -/

/-- The host asks for a program, after whatever it has asked for already. -/
def State.submit (s : State) (p : List HostAsm) : State := { s with pending := s.pending ++ assemble p }

/-- The word the host's last read returned (0 before any read). -/
def State.lastRead (s : State) : Word := s.reads.headD 0#32

/-- What a host that has tried a stretch of counters answers. -/
inductive WorkerAnswer where
  /-- The first counter of the stretch whose candidate passes. -/
  | found (i : Nat)
  /-- No counter of the stretch passes. -/
  | exhausted
  /-- A candidate of 56 bytes or more was reached before one passed (R228). -/
  | overflow
deriving DecidableEq, Repr

/-- Where a host stands in an iteration of R224. -/
inductive WorkerPhase where
  /-- About to load the candidate. -/
  | load
  /-- Waiting for `rd.status`, to check MFULL before PACK. -/
  | check
  /-- Waiting for `rd.result`, to apply the mask. -/
  | judge
  | finished (a : WorkerAnswer)
deriving DecidableEq, Repr

/-- A host that runs R223 on one HCE: the counter it tries, and how many counters are after it. -/
structure Worker where
  counter : Nat
  left : Nat
  phase : WorkerPhase
deriving DecidableEq, Repr

/-- A host about to try `counter`, with `left` counters after it. -/
def Worker.begin (counter left : Nat) : Worker := { counter := counter, left := left, phase := .load }

/-- The host is done. -/
def Worker.finish (a : WorkerAnswer) (k : Worker) : Worker := { k with phase := .finished a }

/-- R223: `i <- i + 1`, or the end if this was the last counter. -/
def Worker.advance (k : Worker) : Worker :=
  match k.left with
  | 0 => k.finish .exhausted
  | n + 1 => Worker.begin (k.counter + 1) n

/-- The answer of a host that is done. -/
def Worker.answer (k : Worker) : Option WorkerAnswer :=
  match k.phase with
  | .finished a => some a
  | .load => none
  | .check => none
  | .judge => none

/-- One step of the host's HCE while the host waits for its accesses. -/
def Worker.wait (k : Worker) (s : State) : Host.Outcome (Worker × State) Fault Refusal :=
  match step s with
  | .next t => .next (k, t)
  | .fault r => .fault r
  | .refused r => .refused r

/-- R224: what the host does next on its HCE: submit its accesses, one step of the HCE while they are pending, or read off the
outcome. MFULL (bit 4) is checked before PACK. A host that is done does nothing more. -/
def Worker.turn (seed : Seed) (mask : Word) (k : Worker) (s : State) : Host.Outcome (Worker × State) Fault Refusal :=
  match k.phase with
  | .finished _ => .next (k, s)
  | .load => .next ({ k with phase := .check }, s.submit (loadMessage (candidate seed k.counter) ++ [.rdStatus]))
  | .check =>
    if !s.pending.isEmpty then k.wait s
    else if s.lastRead.getLsbD 4 then .next (k.finish .overflow, s)
    else .next ({ k with phase := .judge }, s.submit runBlock)
  | .judge =>
    if !s.pending.isEmpty then k.wait s
    else if maskPasses s.lastRead mask then .next (k.finish (.found k.counter), s)
    else .next (k.advance, s)

/-- `fuel` turns of the host, one after another (93_implementation_defined.md U12: "A model runs the host under fuel"; log
entry 16). -/
def Worker.run (seed : Seed) (mask : Word) : Nat → Worker → State → Host.Outcome (Worker × State) Fault Refusal
  | 0, k, s => .next (k, s)
  | fuel + 1, k, s =>
    match k.turn seed mask s with
    | .next (k', t) => Worker.run seed mask fuel k' t
    | .fault r => .fault r
    | .refused r => .refused r

/-- What a search on the HCE answers. -/
inductive SearchAnswer where
  | found (i : Nat)
  | failed (e : SearchError)
  | outOfFuel
deriving DecidableEq, Repr

/-- The one host of a search has tried every counter: R228 and R229. -/
def Worker.searchAnswer (k : Worker) : SearchAnswer :=
  match k.answer with
  | some (.found i) => .found i
  | some .overflow => .failed .messageOverflow
  | some .exhausted => .failed .counterOverflow
  | none => .outOfFuel

/-- R223 realised by R224: `search(seed, mask)` run on the HCE by at most `fuel` turns of the host. -/
def searchOnHce (fuel counterBits : Nat) (seed : Seed) (mask : Word) (s : State) :
    Host.Outcome (SearchAnswer × State) Fault Refusal :=
  match Worker.run seed mask fuel (Worker.begin 1 (lastCounter counterBits - 1)) s with
  | .next (k, t) => .next (k.searchAnswer, t)
  | .fault r => .fault r
  | .refused r => .refused r

end Sys2Proof.Machine
end

