-- ==== Sys2Proof/Machine/SplitSearch.lean ====
section
/-!
DEFINITION. A search split over several workers (43_host_search_driver.md R234): the counters are partitioned into disjoint,
ordered ranges, one for each worker, and the workers' answers are reduced by the smallest successful counter. It stands here
twice: as a function of the workers' ranges, and on the engines of a platform (10_state.md R35), one worker for each engine,
their turns in any order.
-/

namespace Sys2Proof.Machine

/-! ### The ranges -/

/-- A worker's counters: `size` of them, from `first` on. -/
structure CounterRange where
  first : Nat
  size : Nat
deriving DecidableEq, Repr

/-- R234, "partition the integer domain into disjoint, ordered ranges": the ranges, in order, are the counters from `first` to
`last`, each once. -/
def partitions (last : Nat) : Nat → List CounterRange → Bool
  | first, [] => decide (first = last + 1)
  | first, r :: rs => decide (r.first = first) && partitions last (first + r.size) rs

/-! ### The reduction -/

/-- The smaller of two counters, where one may be absent. -/
def smaller : Option Nat → Option Nat → Option Nat
  | none, y => y
  | some x, none => some x
  | some x, some y => some (min x y)

/-- The counter a worker found. -/
def WorkerAnswer.counter : WorkerAnswer → Option Nat
  | .found i => some i
  | .exhausted => none
  | .overflow => none

/-- R234, "taking the global minimum successful `i`", over the workers' answers. -/
def smallestFound (answers : List WorkerAnswer) : Option Nat :=
  answers.foldr (fun a m => smaller a.counter m) none

/-- R234's reduction. Where no worker succeeds R234 names no error: then the answer is MessageOverflow if some worker reached a
candidate of 56 bytes, and CounterOverflow otherwise. DESIGN CHOICE (log entry 24): it is what R223 answers for the same
counters. A worker's overflow does not undo another worker's success, which is a smaller counter. -/
def reduceAnswers (answers : List WorkerAnswer) : Except SearchError Nat :=
  match smallestFound answers with
  | some i => .ok i
  | none => if WorkerAnswer.overflow ∈ answers then .error .messageOverflow else .error .counterOverflow

/-! ### The split search as a function -/

/-- One worker: its counters from `first` on, `size` of them, until one passes or its candidate is too long (log entry 24). -/
def tryRange (seed : Seed) (mask : Word) : Nat → Nat → WorkerAnswer
  | 0, _ => .exhausted
  | size + 1, first =>
    match tryCounter seed mask first with
    | .found => .found first
    | .overflow => .overflow
    | .miss => tryRange seed mask size (first + 1)

/-- R234: every worker's answer, reduced. -/
def splitSearch (seed : Seed) (mask : Word) (ranges : List CounterRange) : Except SearchError Nat :=
  reduceAnswers (ranges.map fun r => tryRange seed mask r.size r.first)

/-! ### The split search on a platform -/

/-- A platform whose engine n is driven by worker n. -/
structure SplitSearch where
  platform : Platform
  workers : List Worker
deriving DecidableEq, Repr

/-- Why a split search does not start (log entry 24). -/
inductive SplitRefusal where
  /-- R234: the ranges are no partition of the counters 1 to 2^COUNTER_BITS - 1. -/
  | notAPartition
  /-- R64: "A platform gives each concurrent worker its own instance". -/
  | tooFewEngines
deriving DecidableEq, Repr

/-- The worker of a range; an empty range is exhausted at once. -/
def CounterRange.worker (r : CounterRange) : Worker :=
  match r.size with
  | 0 => (Worker.begin r.first 0).finish .exhausted
  | n + 1 => Worker.begin r.first n

/-- R234: assign the ranges to independent workers, one for each engine of the platform. -/
def SplitSearch.start (counterBits : Nat) (ranges : List CounterRange) (pl : Platform) : Except SplitRefusal SplitSearch :=
  if !partitions (lastCounter counterBits) 1 ranges then .error .notAPartition
  else if pl.engines.length < ranges.length then .error .tooFewEngines
  else .ok { platform := pl, workers := ranges.map CounterRange.worker }

/-- A turn of worker `n` on its own engine; the other workers and engines take none. -/
def SplitSearch.turn (seed : Seed) (mask : Word) (n : Nat) (sp : SplitSearch) : Host.Outcome SplitSearch Fault Refusal :=
  match sp.workers[n]?, sp.platform.engines[n]? with
  | some k, some e =>
    match k.turn seed mask e.machine with
    | .next (k', t) =>
      .next { platform := { engines := sp.platform.engines.set n { e with machine := t } }, workers := sp.workers.set n k' }
    | .fault r => .fault r
    | .refused r => .refused r
  | none, _ => .next sp
  | some _, none => .next sp

/-- The workers' turns, in the order of a list of workers: any order is possible (log entry 21). -/
def SplitSearch.run (seed : Seed) (mask : Word) : List Nat → SplitSearch → Host.Outcome SplitSearch Fault Refusal
  | [], sp => .next sp
  | n :: turns, sp =>
    match sp.turn seed mask n with
    | .next sp' => SplitSearch.run seed mask turns sp'
    | .fault r => .fault r
    | .refused r => .refused r

/-- R234, "A worker must not assume it found the overall answer merely because it found *a* match": there is an answer once
every worker is done, and it is the reduction of theirs. -/
def SplitSearch.answer (sp : SplitSearch) : Option (Except SearchError Nat) :=
  if sp.workers.all fun k => k.answer.isSome then some (reduceAnswers (sp.workers.filterMap Worker.answer)) else none

end Sys2Proof.Machine
end

