-- ==== Sys2Proof/Safety.lean ====
section
/-!
DEFINITION. What the statements are stated in terms of: the invariants of 10_state.md R33, the run invariant behind
41_compression.md R162, accesses that raise no AccessError, the causes of CERR (60_exceptions.md R251), and when two states
differ in nothing the host can observe (R23, R34).
-/

namespace Sys2Proof.Machine

/-- R33, I1: BUSY = 1 implies RND <= 63. -/
abbrev Hce.I1 (h : Hce) : Prop := h.busy = true → h.rnd.toNat ≤ 63

/-- R33, I2: DONE = 1 implies BUSY = 0, RND = 64 and RESULT = A + IV[0]. -/
abbrev Hce.I2 (h : Hce) : Prop := h.done = true → h.busy = false ∧ h.rnd = 64#7 ∧ h.result = h.work.a + IV.a

/-- R33, I3: BUSY = 0 and DONE = 0 imply RND = 0 and RESULT = 0. -/
abbrev Hce.I3 (h : Hce) : Prop := h.busy = false → h.done = false → h.rnd = 0#7 ∧ h.result = 0#32

/-- R33, I4: PERR = 1 implies LEN = 56. -/
abbrev Hce.I4 (h : Hce) : Prop := h.perr = true → h.len = 56#6

/-- R33, I5: LEN <= 56 and RND <= 64. -/
abbrev Hce.I5 (h : Hce) : Prop := h.len.toNat ≤ 56 ∧ h.rnd.toNat ≤ 64

/-- R33: the five invariants. -/
abbrev Hce.Invariant (h : Hce) : Prop := h.I1 ∧ h.I2 ∧ h.I3 ∧ h.I4 ∧ h.I5

/-- While a run is in progress, (A, B, C, D) are what the first RND rounds over W make of IV (R141, R162). -/
abbrev Hce.OnTrack (h : Hce) : Prop := h.busy = true → h.work = rounds h.w h.rnd.toNat

/-- The host's action raises no AccessError (`poll` reads STATUS). -/
def HostAction.wellFormed : HostAction → Bool
  | .access a => a.wellFormed
  | .poll => true

/-- Every action the host has yet to perform raises no AccessError. -/
abbrev State.accessesWellFormed (s : State) : Prop := ∀ x ∈ s.pending, x.wellFormed = true

/-- No reset is scheduled. -/
abbrev State.resetFree (s : State) : Prop := Turn.reset ∉ s.schedule

/-- The command, or the write of W, that an instruction asks for: WR_CMD is looked up in R83. -/
def commandOf : Instr → Option Command
  | .nop => some .nop
  | .clear => some .clear
  | .append b => some (.append b)
  | .pack => some .pack
  | .start => some .start
  | .wrCmd v => decodeCommand v
  | .rdStatus => none
  | .rdResult => none
  | .rdW _ => none
  | .wrW _ _ => none

/-- The five causes of R251. -/
inductive CerrCause where
  /-- CE-ILL, an illegal CMD word. -/
  | illegal
  /-- CE-PACKBUSY, PACK while BUSY = 1. -/
  | packBusy
  /-- CE-STARTBUSY, START while BUSY = 1. -/
  | startBusy
  /-- CE-STARTPERR, START while PERR = 1. -/
  | startPerr
  /-- CE-WBUSY, a write of W while BUSY = 1. -/
  | wBusy
deriving DecidableEq, Repr

/-- R251: the cause `c` holds of the instruction `i` in the HCE state `h`. -/
def CerrCause.holds (i : Instr) (h : Hce) : CerrCause → Prop
  | .illegal => ∃ v, i = .wrCmd v ∧ decodeCommand v = none
  | .packBusy => commandOf i = some .pack ∧ h.busy = true
  | .startBusy => commandOf i = some .start ∧ h.busy = true
  | .startPerr => commandOf i = some .start ∧ h.perr = true
  | .wBusy => (∃ k v, i = .wrW k v) ∧ h.busy = true

/-- Two HCE states that agree in everything but what the spec calls unobservable: A to D while no run is in progress (R34), and
MSG[j] for j >= LEN (R23). -/
def Hce.sameVisible (h h' : Hce) : Prop :=
  h.w = h'.w ∧ h.len = h'.len ∧ h.rnd = h'.rnd ∧ h.result = h'.result ∧ h.busy = h'.busy ∧ h.done = h'.done
    ∧ h.perr = h'.perr ∧ h.cerr = h'.cerr ∧ h.message = h'.message ∧ (h.busy = true → h.work = h'.work)

/-- Two machine states whose HCEs agree in everything observable and whose host sides are the same. -/
def State.sameVisible (s s' : State) : Prop :=
  s.hce.sameVisible s'.hce ∧ s.pending = s'.pending ∧ s.schedule = s'.schedule ∧ s.reads = s'.reads

/-- Two steps with the same outcome, as far as the host can observe. -/
def sameOutcome : Result → Result → Prop
  | .next s, .next s' => s.sameVisible s'
  | .fault r, .fault r' => r = r'
  | .refused r, .refused r' => r = r'
  | _, _ => False

/-- `n` ENGINE steps, one after another, with no HOST step between them. -/
def engineRounds : Nat → State → Result
  | 0, s => .next s
  | n + 1, s =>
    match engineRound s with
    | .next t => engineRounds n t
    | .fault r => .fault r
    | .refused r => .refused r

end Sys2Proof.Machine
end

