-- ==== Sys2Proof/Certificates/Slice0/Obligations.lean ====
section
/-!
DEFINITION. The statements for the provers. OBLIGATIONS.json says of each what it states and which rule it comes from.
-/

open Sys2Proof Sys2Proof.Machine

/-! ### Encoding -/

/-- Every well-formed instruction is what its own encoding decodes to, with every operand at every value (R83, R84, R88, R89). -/
def Obligations.EncodedInstructionDecodesToItself : Prop :=
  ∀ i : Instr, i.wellFormed = true → decode (encode i) = .ok i

/-- A word or a descriptor that decodes is the encoding of what it decodes to; a read's bus word is not part of it
(log entry 11). -/
def Obligations.DecodedWordIsTheEncodingOfItsInstruction : Prop :=
  (∀ v i, decode (.cmd v) = .ok i → encode i = .cmd v) ∧
  (∀ d data i, decode (.bus d data) = .ok i → encode i = .bus d (if d.msb then data else 0#32))

/-- Words written out from R83, R89 and the programs of 95_test_vectors.md decode to what they stand for. -/
def Obligations.WordsWrittenOutFromTheSpecDecode : Prop :=
  decodeTableWord 32 0b00000000000000000000000000000000 = some .nop ∧
  decodeTableWord 32 0b00000000000000000000000000000001 = some .clear ∧
  decodeTableWord 32 0b00000000000000000110000100000010 = some (.append 0x61#8) ∧
  decodeTableWord 32 0b00000000000000000000000000000011 = some .pack ∧
  decodeTableWord 32 0b00000000000000000000000000000100 = some .start ∧
  decodeTableWord 16 0b0000000100000000 = some (.wrCmd 0#32) ∧
  decodeTableWord 16 0b0000000000000100 = some .rdStatus ∧
  decodeTableWord 16 0b0000000000001000 = some .rdResult ∧
  decodeTableWord 16 0b0000000001111000 = some (.rdW 14#4) ∧
  decodeTableWord 16 0b0000000101001100 = some (.wrW 3#4 0#32) ∧
  decodeTableWord 32 0x00000105 = none ∧
  decodeTableWord 16 0x000 = none

/-- R83: the rows, that they do not overlap, that a word is legal iff it belongs to exactly one, and the word of each. -/
def Obligations.LegalWordBelongsToExactlyOneCommandRow : Prop :=
  cmdRows.map (fun r => (r.pattern, r.mask)) =
    [(0x00000000#32, 0xFFFFFFFF#32), (0x00000001#32, 0xFFFFFFFF#32), (0x00000002#32, 0xFFFF00FF#32),
      (0x00000003#32, 0xFFFFFFFF#32), (0x00000004#32, 0xFFFFFFFF#32)] ∧
  (∀ v, (cmdRows.filter fun r => v &&& r.mask == r.pattern).length ≤ 1) ∧
  (∀ v, (decodeCommand v).isSome = true ↔ (cmdRows.filter fun r => v &&& r.mask == r.pattern).length = 1) ∧
  decodeCommand 0x00000000#32 = some .nop ∧ decodeCommand 0x00000001#32 = some .clear ∧
  (∀ b : Byte, decodeCommand ((0x0000#16 ++ b ++ 0b00000010#8).cast rfl) = some (.append b)) ∧
  decodeCommand 0x00000003#32 = some .pack ∧ decodeCommand 0x00000004#32 = some .start

/-- R85: which words written to CMD are illegal, and that writing one sets CERR, completes, and does nothing else. -/
def Obligations.IllegalWordSetsCerrAndNothingElse : Prop :=
  ∀ v : Word,
    (decodeCommand v = none ↔
      5 ≤ (v.extractLsb' 0 4).toNat ∨ v.extractLsb' 4 4 ≠ 0#4 ∨ v.extractLsb' 16 16 ≠ 0#16 ∨
        (v.extractLsb' 8 8 ≠ 0#8 ∧ v.extractLsb' 0 4 ≠ 2#4)) ∧
    (decodeCommand v = none → ∀ s, exec (.wrCmd v) s = .next { s with hce := { s.hce with cerr := true } })

/-- R199: the accesses that end in an error response, and no others; the run then stops and nothing is returned. -/
def Obligations.AccessErrorForExactlyTheListedAccesses : Prop :=
  ∀ (a : Access) (s : State),
    performAccess a s = .fault (.accessError a.off) ↔
      (a.width ≠ .bits 32 ∨ a.off.extractLsb' 0 2 ≠ 0#2 ∨
        (a.write = false ∧ a.off = 0x00#8) ∨ (a.write = true ∧ a.off = 0x04#8) ∨ (a.write = true ∧ a.off = 0x08#8) ∨
        (0x0C ≤ a.off.toNat ∧ a.off.toNat ≤ 0x3F) ∨ 0x80 ≤ a.off.toNat)

/-- R52 and R88: the register map. What a 32-bit access does at each offset it lists, and AccessError everywhere else. -/
def Obligations.RegisterMapOfTheWindow : Prop :=
  ∀ (off : BitVec 8) (data : Word) (s : State),
    let rd := performAccess { write := false, width := .bits 32, off := off, data := data } s
    let wr := performAccess { write := true, width := .bits 32, off := off, data := data } s
    (off = 0x00#8 → rd = .fault (.accessError off) ∧ wr = exec (.wrCmd data) s) ∧
    (off = 0x04#8 → rd = exec .rdStatus s ∧ wr = .fault (.accessError off)) ∧
    (off = 0x08#8 → rd = exec .rdResult s ∧ wr = .fault (.accessError off)) ∧
    (∀ k : BitVec 4, off.toNat = 0x40 + 4 * k.toNat → rd = exec (.rdW k) s ∧ wr = exec (.wrW k data) s) ∧
    (off ≠ 0x00#8 → off ≠ 0x04#8 → off ≠ 0x08#8 → (∀ k : BitVec 4, off.toNat ≠ 0x40 + 4 * k.toNat) →
      rd = .fault (.accessError off) ∧ wr = .fault (.accessError off))

/-! ### The packer commands -/

/-- R110: NOP is accepted in every state and changes nothing; a word with OP = 0 and any other bit set is not NOP. -/
def Obligations.NopChangesNothingInAnyState : Prop :=
  decode (.cmd 0x00000000#32) = .ok .nop ∧
  ∀ s : State, exec .nop s = .next s ∧ exec (.wrCmd 0x00000000#32) s = .next s ∧
    ∀ v : Word, v.extractLsb' 0 4 = 0#4 → v ≠ 0#32 →
      exec (.wrCmd v) s = .next { s with hce := { s.hce with cerr := true } }

/-- R111: CLEAR, in every state: LEN, PERR and CERR become 0, and every other piece of state, a run in progress too, stays. -/
def Obligations.ClearEmptiesTheMessageAndTheErrorFlags : Prop :=
  decode (.cmd 0x00000001#32) = .ok .clear ∧
  ∀ s : State, ∃ t, exec .clear s = .next t ∧
    t.hce.len = 0#6 ∧ t.hce.perr = false ∧ t.hce.cerr = false ∧
    t.hce.busy = s.hce.busy ∧ t.hce.done = s.hce.done ∧ t.hce.w = s.hce.w ∧ t.hce.result = s.hce.result ∧
    t.hce.rnd = s.hce.rnd ∧ t.hce.work = s.hce.work ∧ t.hce.msg = s.hce.msg ∧
    t.pending = s.pending ∧ t.schedule = s.schedule ∧ t.reads = s.reads ∧
    (s.hce.len = 0#6 → s.hce.perr = false → s.hce.cerr = false → t = s) ∧
    (s.hce.statusWord = 0x0000381C#32 → t.hce.statusWord = 0x00000000#32)

/-- R112: APPEND b, in every state: MSG[LEN] <- b and LEN <- LEN + 1 if LEN < 56, nothing at LEN = 56, and no flag written. -/
def Obligations.AppendStoresOneByteUntilTheBufferIsFull : Prop :=
  ∀ (b : Byte) (s : State), decode (.cmd ((0x0000#16 ++ b ++ 0x02#8).cast rfl)) = .ok (.append b) ∧
    ∃ t, exec (.append b) s = .next t ∧
    (∀ lt : s.hce.len.toNat < 56,
      t.hce.len.toNat = s.hce.len.toNat + 1 ∧ t.hce.msg[s.hce.len.toNat] = b ∧
      (∀ j, (h : j < 56) → j ≠ s.hce.len.toNat → t.hce.msg[j] = s.hce.msg[j]) ∧
      (t.hce.statusWord.getLsbD 4 = true ↔ s.hce.len = 55#6)) ∧
    (s.hce.len = 56#6 → t = s) ∧
    (s.hce.statusWord = 0x00000000#32 → t.hce.statusWord = 0x00000100#32) ∧
    t.hce.busy = s.hce.busy ∧ t.hce.done = s.hce.done ∧ t.hce.perr = s.hce.perr ∧ t.hce.cerr = s.hce.cerr ∧
    t.hce.w = s.hce.w ∧ t.hce.result = s.hce.result ∧ t.hce.rnd = s.hce.rnd ∧ t.hce.work = s.hce.work ∧
    t.pending = s.pending ∧ t.schedule = s.schedule ∧ t.reads = s.reads

/-- R113: a message is loaded by CLEAR and one APPEND for each of its bytes, in order, by the steps of the host. -/
def Obligations.MessageIsLoadedByClearAndAppends : Prop :=
  ∀ (m : List Byte) (rest : List HostAction) (turns : List Turn) (s : State),
    s.pending = assemble (loadMessage m) ++ rest →
    s.schedule = List.replicate (m.length + 1) .host ++ turns →
    ∃ t, Host.Core.run core (m.length + 1) s = .next t ∧ t.pending = rest ∧ t.schedule = turns ∧
      t.hce.len.toNat = min m.length 56 ∧
      (m.length ≤ 55 → ∀ j, (h : j < m.length) → t.hce.msg.toList[j]? = some m[j])

/-- R120 and R121: PACK. While BUSY = 1 it sets CERR only; with LEN = 56 it sets PERR only; otherwise it writes W, word by word
as R56 says, from the 64 bytes P of R121, and changes nothing else; doing it twice does nothing more. -/
def Obligations.PackWritesThePaddedBlock : Prop :=
  decode (.cmd 0x00000003#32) = .ok .pack ∧
  ∀ s : State,
    (s.hce.busy = true → exec .pack s = .next { s with hce := { s.hce with cerr := true } }) ∧
    (s.hce.busy = false → s.hce.len = 56#6 → exec .pack s = .next { s with hce := { s.hce with perr := true } }) ∧
    (s.hce.busy = false → s.hce.len.toNat < 56 →
      ∃ (p : Vector Byte 64) (w : Vector Word 16),
        (∀ j, (h : j < s.hce.len.toNat) → (h' : j < 56) → p[j] = s.hce.msg[j]) ∧
        p[s.hce.len.toNat]? = some 0x80#8 ∧
        (∀ j, (h : j < 56) → s.hce.len.toNat < j → p[j] = 0x00#8) ∧
        (p[59] ++ p[58] ++ p[57] ++ p[56]).toNat = 8 * s.hce.len.toNat ∧
        p[60] = 0x00#8 ∧ p[61] = 0x00#8 ∧ p[62] = 0x00#8 ∧ p[63] = 0x00#8 ∧
        (∀ k, (h : k < 16) → w[k].toNat = (p[4 * k + 3] ++ p[4 * k + 2] ++ p[4 * k + 1] ++ p[4 * k]).toNat) ∧
        exec .pack s = .next { s with hce := { s.hce with w := w } } ∧
        exec .pack { s with hce := { s.hce with w := w } } = .next { s with hce := { s.hce with w := w } })

/-- R122: what a successful PACK leaves in W. -/
def Obligations.PackedBlockHasMessageTerminatorAndLength : Prop :=
  ∀ s : State, s.hce.busy = false → s.hce.len.toNat < 56 →
    ∃ t, exec .pack s = .next t ∧
      t.hce.w[14].toNat = 8 * s.hce.len.toNat ∧ t.hce.w[15] = 0#32 ∧
      (∃ k, ∃ h : k < 16, k = s.hce.len.toNat / 4 ∧
        (t.hce.w[k]).extractLsb' (8 * (s.hce.len.toNat % 4)) 8 = 0x80#8 ∧
        (t.hce.w[k]) >>> (8 * (s.hce.len.toNat % 4) + 8) = 0#32) ∧
      (∀ k, (h : k < 14) → s.hce.len.toNat / 4 < k → t.hce.w[k] = 0#32) ∧
      (∀ k, (h : k < 14) → k < s.hce.len.toNat / 4 →
        t.hce.w[k].toNat = (s.hce.msg[4 * k + 3] ++ s.hce.msg[4 * k + 2] ++ s.hce.msg[4 * k + 1] ++ s.hce.msg[4 * k]).toNat)

/-! ### The compression datapath -/

/-- R142: the left-rotate amounts. -/
def Obligations.ShiftAmountsRepeatWithinEachGroup : Prop :=
  ∀ i : Fin 64,
    [[7, 12, 17, 22], [5, 9, 14, 20], [4, 11, 16, 23], [6, 10, 15, 21]][i.val / 16]?.bind (·[i.val % 4]?) = some (S i) ∧
    4 ≤ S i ∧ S i ≤ 23

/-- R145: the message schedule, that each group of sixteen rounds reads each block word exactly once, and that no ENGINE step
modifies the block. -/
def Obligations.ScheduleReadsEveryBlockWordOnceInEachGroup : Prop :=
  (∀ i : Fin 64, (g i).val =
    if i.val < 16 then i.val else if i.val < 32 then (5 * i.val + 1) % 16
    else if i.val < 48 then (3 * i.val + 5) % 16 else (7 * i.val) % 16) ∧
  (∀ q : Fin 4, ∀ k : Fin 16, ((List.finRange 64).filter fun i => i.val / 16 = q.val ∧ g i = k).length = 1) ∧
  (∀ s t : State, engineRound s = .next t → t.hce.w = s.hce.w)

/-- 95_test_vectors.md, L1-1, L1-2, L2-C3, L2-C9 and L2-C10: blocks and the words they compress to. -/
def Obligations.GoldenVectorsAreReproduced : Prop :=
  compress #v[0x64636261#32, 0x30366665#32, 0x33343039#32, 0x00000080#32, 0, 0, 0, 0, 0, 0, 0, 0, 0, 0, 0x60#32, 0]
    = 0xdb010000#32 ∧
  compress #v[0x73727170#32, 0x31767574#32, 0x39383430#32, 0x00803037#32, 0, 0, 0, 0, 0, 0, 0, 0, 0, 0, 0x70#32, 0]
    = 0x13060000#32 ∧
  compress #v[0x80636261#32, 0, 0, 0, 0, 0, 0, 0, 0, 0, 0, 0, 0, 0, 0x18#32, 0] = 0x98500190#32 ∧
  compress (Vector.replicate 16 0x00000000#32) = 0x031f1dac#32 ∧
  compress (Vector.replicate 16 0xFFFFFFFF#32) = 0x561987b4#32

/-- R150: START, accepted iff BUSY = 0 and PERR = 0, and what it writes then; rejected with CERR alone otherwise. -/
def Obligations.StartBeginsARunUnlessBusyOrPackFailed : Prop :=
  decode (.cmd 0x00000004#32) = .ok .start ∧
  ∀ s : State,
    (s.hce.busy = true ∨ s.hce.perr = true → exec .start s = .next { s with hce := { s.hce with cerr := true } }) ∧
    (s.hce.busy = false → s.hce.perr = false →
      exec .start s = .next { s with hce := { s.hce with
        work := { a := 0x67452301#32, b := 0xefcdab89#32, c := 0x98badcfe#32, d := 0x10325476#32 }
        rnd := 0#7, busy := true, done := false } })

/-- R146, R147 and R160: one ENGINE step before the last round. f, x and the new registers are written out; K, S and g are the
tables. -/
def Obligations.RoundRotatesAndAdds : Prop :=
  ∀ (s : State) (i : Fin 64), s.hce.busy = true → s.hce.rnd.toNat = i.val → i.val ≠ 63 →
    ∃ f x : Word,
      f = (if i.val < 16 then (s.hce.work.b &&& s.hce.work.c) ||| (~~~s.hce.work.b &&& s.hce.work.d)
        else if i.val < 32 then (s.hce.work.d &&& s.hce.work.b) ||| (~~~s.hce.work.d &&& s.hce.work.c)
        else if i.val < 48 then s.hce.work.b ^^^ s.hce.work.c ^^^ s.hce.work.d
        else s.hce.work.c ^^^ (s.hce.work.b ||| ~~~s.hce.work.d)) ∧
      x.toNat = (f.toNat + s.hce.work.a.toNat + (K i).toNat + (s.hce.w[(g i).val]).toNat) % 2 ^ 32 ∧
      engineRound s = .next { s with hce := { s.hce with
        work := { a := s.hce.work.d, b := s.hce.work.b + x.rotateLeft (S i), c := s.hce.work.b, d := s.hce.work.c }
        rnd := BitVec.ofNat 7 (i.val + 1) } }

/-- R161: the completion, in the same step as round 63. -/
def Obligations.LastRoundCompletesTheRun : Prop :=
  ∀ s : State, s.hce.busy = true → s.hce.rnd = 63#7 →
    ∃ t, engineRound s = .next t ∧ t.hce.work = roundOf 63 s.hce.work s.hce.w ∧
      t.hce.result = t.hce.work.a + 0x67452301#32 ∧ t.hce.busy = false ∧ t.hce.done = true ∧ t.hce.rnd = 64#7 ∧
      t.hce.w = s.hce.w ∧ t.hce.msg = s.hce.msg ∧ t.hce.len = s.hce.len ∧ t.hce.perr = s.hce.perr ∧
      t.hce.cerr = s.hce.cerr ∧ t.pending = s.pending ∧ t.schedule = s.schedule ∧ t.reads = s.reads

/-- R163: from an accepted START, BUSY stays 1 and RND counts through the first 63 ENGINE steps, and the 64th ends the run. -/
def Obligations.RunTakesExactlySixtyFourEngineSteps : Prop :=
  ∀ s0 s : State, s0.hce.busy = false → s0.hce.perr = false → exec .start s0 = .next s →
    (∀ n < 64, ∃ t, engineRounds n s = .next t ∧ t.hce.busy = true ∧ t.hce.rnd.toNat = n) ∧
    (∃ t, engineRounds 64 s = .next t ∧ t.hce.busy = false ∧ t.hce.done = true ∧ t.hce.rnd = 64#7 ∧
      t.hce.result = compress s0.hce.w)

/-- R162: if START is accepted with block W0, then the 64th ROUND step after it writes RESULT = compress(W0), whatever host
accesses are interleaved, as long as no reset occurs. `turns` is any order of the steps up to that ROUND step: 63 turns of the
ENGINE, any number of the HOST's, then the ENGINE's 64th; the run of the machine reaches its end unless one of the host's
accesses is an AccessError. -/
def Obligations.RunComputesTheReferenceFunctionUnderAnyInterleaving : Prop :=
  ∀ (s0 s t : State) (turns rest : List Turn),
    s0.hce.busy = false → s0.hce.perr = false → exec .start s0 = .next s →
    s.schedule = turns ++ .engine :: rest → .reset ∉ turns → turns.count .engine = 63 →
    Host.Core.run core (turns.length + 1) s = .next t →
    t.hce.result = compress s0.hce.w ∧ t.hce.done = true ∧ t.hce.busy = false ∧ t.hce.rnd = 64#7 ∧ t.hce.w = s0.hce.w ∧
      t.schedule = rest

/-! ### The bus accesses -/

/-- R190: WR_CMD performs the command its word is, and completes whatever becomes of the command; a write of CMD of any other
width is an access error. -/
def Obligations.CommandWritePerformsItsCommand : Prop :=
  decode (.bus 0x100#9 0x00006102#32) = .ok (.wrCmd 0x00006102#32) ∧
  (∀ (width : Width) (v : Word) (s : State), width ≠ .bits 32 →
    performAccess { write := true, width := width, off := 0x00#8, data := v } s = .fault (.accessError 0x00#8)) ∧
  ∀ (v : Word) (s : State),
    (∃ t, exec (.wrCmd v) s = .next t) ∧
    (v = 0x00000000#32 → exec (.wrCmd v) s = exec .nop s) ∧
    (v = 0x00000001#32 → exec (.wrCmd v) s = exec .clear s) ∧
    (v &&& 0xFFFF00FF#32 = 0x00000002#32 → exec (.wrCmd v) s = exec (.append (v.extractLsb' 8 8)) s) ∧
    (v = 0x00000003#32 → exec (.wrCmd v) s = exec .pack s) ∧
    (v = 0x00000004#32 → exec (.wrCmd v) s = exec .start s) ∧
    (v ≠ 0x00000000#32 → v ≠ 0x00000001#32 → v &&& 0xFFFF00FF#32 ≠ 0x00000002#32 → v ≠ 0x00000003#32 → v ≠ 0x00000004#32 →
      exec (.wrCmd v) s = .next { s with hce := { s.hce with cerr := true } })

/-- R29 and R191: a read of STATUS returns every field in its place and 0 in the reserved bits, and changes nothing in the
HCE; a write of STATUS is an access error. -/
def Obligations.StatusReadReturnsEveryField : Prop :=
  ∀ s : State,
    (∃ v : Word, exec .rdStatus s = .next { s with reads := v :: s.reads } ∧
      (v.getLsbD 0 = s.hce.busy) ∧ (v.getLsbD 1 = s.hce.done) ∧ (v.getLsbD 2 = s.hce.perr) ∧ (v.getLsbD 3 = s.hce.cerr) ∧
      (v.getLsbD 4 = true ↔ s.hce.len = 56#6) ∧ v.extractLsb' 5 3 = 0#3 ∧ v.extractLsb' 8 6 = s.hce.len ∧
      v.extractLsb' 14 2 = 0#2 ∧ v.extractLsb' 16 7 = s.hce.rnd ∧ v.extractLsb' 23 9 = 0#9) ∧
    (∀ data, performAccess { write := true, width := .bits 32, off := 0x04#8, data := data } s = .fault (.accessError 0x04#8))

/-- R192 and R194: a read of RESULT or of W[k] returns the register, in every state, a run in progress too, and changes nothing
in the HCE. -/
def Obligations.ResultAndBlockReadsReturnTheRegister : Prop :=
  ∀ s : State,
    exec .rdResult s = .next { s with reads := s.hce.result :: s.reads } ∧
    ∀ (k : BitVec 4) (lt : k.toNat < 16), exec (.rdW k) s = .next { s with reads := s.hce.w[k.toNat] :: s.reads }

/-- R195: a write of W[k] while BUSY = 0 writes that word and nothing else; while BUSY = 1 it sets CERR and nothing else. -/
def Obligations.BlockWriteIsPerformedOnlyWhileIdle : Prop :=
  ∀ (k : BitVec 4) (v : Word) (s : State),
    (s.hce.busy = true → exec (.wrW k v) s = .next { s with hce := { s.hce with cerr := true } }) ∧
    (s.hce.busy = false → ∃ w : Vector Word 16,
      exec (.wrW k v) s = .next { s with hce := { s.hce with w := w } } ∧
      ∀ j, (h : j < 16) → w[j] = if j = k.toNat then v else s.hce.w[j])

/-- R58: reads have no side effect and repeat their value; writing W[k] and writing NOP are idempotent; two APPEND words append
two bytes; START after a completed run starts a new run. -/
def Obligations.ReadsAreFreeOfEffectsAndBlockWritesIdempotent : Prop :=
  (∀ s t u : State, ∀ i : Instr, i = .rdStatus ∨ i = .rdResult ∨ (∃ k, i = .rdW k) → exec i s = .next t → exec i t = .next u →
    t.hce = s.hce ∧ t.pending = s.pending ∧ t.schedule = s.schedule ∧
      ∃ v, t.reads = v :: s.reads ∧ u.reads = v :: t.reads) ∧
  (∀ (s t : State) (k : BitVec 4) (v : Word), exec (.wrW k v) s = .next t → exec (.wrW k v) t = .next t) ∧
  (∀ s : State, exec (.wrCmd 0#32) s = .next s) ∧
  (∀ (s t u : State) (b : Byte), s.hce.len.toNat < 55 → exec (.append b) s = .next t → exec (.append b) t = .next u →
    u.hce.len.toNat = s.hce.len.toNat + 2) ∧
  (∀ s t : State, s.hce.Invariant → s.hce.done = true → s.hce.perr = false → exec .start s = .next t →
    t.hce.busy = true ∧ t.hce.done = false ∧ t.hce.rnd = 0#7)

/-- R55: the window described as bytes is little-endian: byte `off + j` of the register at `off` is its bits [8j+7:8j]; STATUS,
RESULT and the sixteen W are the registers described. -/
def Obligations.WindowBytesAreLittleEndian : Prop :=
  ∀ (h : Hce) (j : Nat), j < 4 →
    h.windowByte (BitVec.ofNat 8 (0x04 + j)) = some (h.statusWord.extractLsb' (8 * j) 8) ∧
    h.windowByte (BitVec.ofNat 8 (0x08 + j)) = some (h.result.extractLsb' (8 * j) 8) ∧
    (∀ k, (lt : k < 16) → h.windowByte (BitVec.ofNat 8 (0x40 + 4 * k + j)) = some ((h.w[k]).extractLsb' (8 * j) 8))

/-! ### Errors -/

/-- R251: the five causes set CERR and change nothing else, and no instruction sets it without one; only CLEAR clears it; no
ENGINE step writes it. -/
def Obligations.CerrIsSetByExactlyTheListedCauses : Prop :=
  (∀ (i : Instr) (s : State) (c : CerrCause), c.holds i s.hce →
    exec i s = .next { s with hce := { s.hce with cerr := true } }) ∧
  (∀ (i : Instr) (s t : State), exec i s = .next t → s.hce.cerr = false → t.hce.cerr = true →
    ∃ c : CerrCause, c.holds i s.hce) ∧
  (∀ s t : State, engineRound s = .next t → t.hce.cerr = s.hce.cerr)

/-- R253, with the invariant R33 (I5) as premise: PERR becomes 1 by PACK with LEN = 56 (and BUSY = 0, R255) alone, and while it
is 1 START is rejected. -/
def Obligations.PerrIsSetOnlyByPackOfAFullBuffer : Prop :=
  (∀ (i : Instr) (s t : State), s.hce.I5 → exec i s = .next t → s.hce.perr = false →
    (t.hce.perr = true ↔ commandOf i = some .pack ∧ s.hce.busy = false ∧ s.hce.len = 56#6)) ∧
  (∀ s t : State, engineRound s = .next t → t.hce.perr = s.hce.perr) ∧
  (∀ s : State, s.hce.perr = true → exec .start s = .next { s with hce := { s.hce with cerr := true } })

/-- R255: an AccessError is decided from width, offset and direction alone; then an illegal word sets CERR and nothing else; then
BUSY = 1 comes before LEN = 56 for PACK, and START gives CERR for either of its two causes; so each access sets at most one
flag. -/
def Obligations.EachAccessSetsAtMostOneFlag : Prop :=
  (∀ (a : Access) (data : Word) (s s' : State), performAccess a s = .fault (.accessError a.off) →
    performAccess { a with data := data } s' = .fault (.accessError a.off)) ∧
  (∀ (v : Word) (s : State), decodeCommand v = none → exec (.wrCmd v) s = .next { s with hce := { s.hce with cerr := true } }) ∧
  (∀ s : State, s.hce.busy = true → s.hce.len = 56#6 →
    exec .pack s = .next { s with hce := { s.hce with cerr := true } }) ∧
  (∀ s : State, s.hce.busy = true ∨ s.hce.perr = true →
    exec .start s = .next { s with hce := { s.hce with cerr := true } }) ∧
  (∀ (a : Access) (s t : State), performAccess a s = .next t →
    ¬ (s.hce.cerr = false ∧ t.hce.cerr = true ∧ s.hce.perr = false ∧ t.hce.perr = true))

/-- R258: a step that clears PERR or CERR is a reset, or the host's step with a CLEAR. -/
def Obligations.OnlyClearAndResetClearTheErrorFlags : Prop :=
  ∀ s t : State, step s = .next t →
    (s.hce.perr = true ∧ t.hce.perr = false) ∨ (s.hce.cerr = true ∧ t.hce.cerr = false) →
    s.schedule.head? = some .reset ∨
      ∃ a rest i, s.pending = .access a :: rest ∧ decodeAccess a = .ok i ∧ commandOf i = some .clear

/-! ### Steps, turns and reset -/

/-- When it is the HOST's turn and its next access decodes to `i`, the step is `exec i`, with the access and the turn used up. -/
def Obligations.StepRunsTheHostsNextAccess : Prop :=
  ∀ (s : State) (a : Access) (i : Instr) (rest : List HostAction) (turns : List Turn),
    s.pending = .access a :: rest → decodeAccess a = .ok i → i.wellFormed = true →
    (s.schedule = .host :: turns → step s = exec i { s with pending := rest, schedule := turns }) ∧
    (s.schedule = [] → s.hce.busy = false → step s = exec i { s with pending := rest })

/-- `withFetchWord` puts an instruction next: the step runs exactly it, and leaves the host's other actions and the schedule. -/
def Obligations.FetchedTableWordRunsItsInstruction : Prop :=
  ∀ (s : State) (nbits w : Nat) (i : Instr), decodeTableWord nbits w = some i → step (s.withFetchWord nbits w) = exec i s

/-- R14, R92 and R266: the ENGINE's turn is one ROUND, and nothing while BUSY = 0; a HOST with no action left does nothing; a
poll reads STATUS and goes on only if the BUSY bit it read is 0. -/
def Obligations.AgentsTakeTheirTurns : Prop :=
  ∀ (s : State) (turns : List Turn),
    (s.schedule = .engine :: turns → step s = engineRound { s with schedule := turns }) ∧
    (s.schedule = .engine :: turns → s.hce.busy = false → step s = .next { s with schedule := turns }) ∧
    (s.schedule = .host :: turns → s.pending = [] → step s = .next { s with schedule := turns }) ∧
    (∀ rest, s.schedule = .host :: turns → s.pending = .poll :: rest →
      step s = .next { s with
        schedule := turns, reads := s.hce.statusWord :: s.reads
        pending := if s.hce.busy = true then s.pending else rest })

/-- R280 and R281, with the values of R34: reset in any state. A to D and MSG are not mentioned: R34 gives them no value. -/
def Obligations.ResetInAnyStateGivesTheResetValues : Prop :=
  ∀ (s : State) (turns : List Turn), s.schedule = .reset :: turns →
    ∃ t, step s = .next t ∧ t.hce.busy = false ∧ t.hce.done = false ∧ t.hce.perr = false ∧ t.hce.cerr = false ∧
      t.hce.len = 0#6 ∧ t.hce.rnd = 0#7 ∧ t.hce.result = 0#32 ∧ (∀ k, (h : k < 16) → t.hce.w[k] = 0#32) ∧
      t.hce.statusWord = 0x00000000#32 ∧ engineRound t = .next t

/-- R34 and R282: the state after reset: the values of R34, and idle. -/
def Obligations.ResetStateHasTheResetValues : Prop :=
  State.reset.hce.busy = false ∧ State.reset.hce.done = false ∧ State.reset.hce.perr = false ∧ State.reset.hce.cerr = false ∧
  State.reset.hce.len = 0#6 ∧ State.reset.hce.rnd = 0#7 ∧ State.reset.hce.result = 0x00000000#32 ∧
  (∀ k : Fin 16, State.reset.hce.w[k.val] = 0x00000000#32) ∧ State.reset.hce.statusWord = 0x00000000#32

/-- R163 and R281: a step that ends a run is the ENGINE's round 63, or a reset. -/
def Obligations.RunEndsOnlyByItsLastRoundOrReset : Prop :=
  ∀ s t : State, step s = .next t → s.hce.busy = true → t.hce.busy = false →
    s.schedule.head? = some .reset ∨
      (s.hce.rnd = 63#7 ∧ t.hce.done = true ∧ t.hce.result = (roundOf 63 s.hce.work s.hce.w).a + IV.a ∧
        (s.schedule.head? = some .engine ∨ s.schedule = []))

/-- R26 and R161: RESULT is written by a completion alone (and by reset). -/
def Obligations.ResultChangesOnlyAtCompletionOrReset : Prop :=
  ∀ s t : State, step s = .next t → t.hce.result ≠ s.hce.result →
    s.schedule.head? = some .reset ∨ (s.hce.busy = true ∧ s.hce.rnd = 63#7 ∧ t.hce.busy = false ∧ t.hce.done = true)

/-- R22, R162 and R292: while BUSY = 1, a HOST step writes neither W, A to D, RND, RESULT, BUSY nor DONE. -/
def Obligations.HostStepsLeaveARunAlone : Prop :=
  ∀ s t : State, hostTurn s = .next t → s.hce.busy = true →
    t.hce.w = s.hce.w ∧ t.hce.work = s.hce.work ∧ t.hce.rnd = s.hce.rnd ∧ t.hce.result = s.hce.result ∧
      t.hce.busy = true ∧ t.hce.done = s.hce.done

/-! ### Invariants and whole-machine rules -/

/-- R33 at reset, and the run invariant. -/
def Obligations.InvariantHoldsAtReset : Prop :=
  State.reset.hce.Invariant ∧ State.reset.hce.OnTrack

/-- R33: every step of either agent, and reset, keeps the five invariants. -/
def Obligations.EveryStepKeepsTheInvariant : Prop :=
  ∀ s t : State, s.hce.Invariant → step s = .next t → t.hce.Invariant

/-- R162: every step keeps a run on the track of the reference function: while BUSY = 1, (A, B, C, D) are what the first RND rounds
over W make of IV. -/
def Obligations.EveryStepKeepsARunOnTrack : Prop :=
  ∀ s t : State, s.hce.OnTrack → step s = .next t → t.hce.OnTrack

/-- R23, R32 and R34: what the spec calls unobservable is: two machines that differ only in MSG beyond LEN, and in A to D while no
run is in progress, take the same step as far as the host can see. -/
def Obligations.UnobservableStateNeverShows : Prop :=
  ∀ s s' : State, s.sameVisible s' → sameOutcome (step s) (step s')

/-- R199, R252 and R160: from a state with the invariant, a host whose accesses are all well formed never meets a fault. -/
def Obligations.WellFormedAccessesNeverFault : Prop :=
  ∀ s : State, s.hce.Invariant → s.accessesWellFormed →
    ∃ t, step s = .next t ∧ t.accessesWellFormed

/-- R193 and R63: a host that issues CLEAR, the APPENDs of m, PACK, START, a poll and a read of RESULT reads compress(pack(m)),
under every order of the agents' turns without a reset. After the turns of the schedule the machine lets the ENGINE run (log entry
2: the weak fairness of R297). -/
def Obligations.HostReadsCompressOfPackUnderEverySchedule : Prop :=
  ∀ (s : State) (m : List Byte), s.hce.busy = false → s.resetFree → m.length ≤ 55 →
    s.pending = assemble (loadMessage m ++ runBlock) →
    ∃ (n : Nat) (t : State) (w : Vector Word 16), Host.Core.run core n s = .next t ∧ t.pending = [] ∧
      packBlock m = some w ∧ t.reads.head? = some (compress w) ∧ t.hce.result = compress w ∧ t.hce.w = w

/-! ### The host's search driver -/

/-- R222: decimal_text(i) is the number i, most significant digit first, in ASCII digits, with no leading zero. -/
def Obligations.DecimalTextIsTheNumber : Prop :=
  ∀ i, 1 ≤ i →
    (∀ b ∈ decimalText i, 0x30 ≤ b.toNat ∧ b.toNat ≤ 0x39) ∧ (decimalText i).head? ≠ some 0x30#8 ∧
    (decimalText i).foldl (fun n b => 10 * n + (b.toNat - 0x30)) 0 = i

/-- R221: `search` returns the smallest positive counter whose candidate passes the mask. -/
def Obligations.SearchReturnsTheSmallestPassingCounter : Prop :=
  ∀ (cb : Nat) (seed : Seed) (mask : Word) (i : Nat), search cb seed mask = .ok i →
    1 ≤ i ∧ (∃ w, packBlock (seed.bytes ++ decimalText i) = some w ∧ compress w &&& mask = 0#32) ∧
    ∀ j, 1 ≤ j → j < i → ∃ w, packBlock (seed.bytes ++ decimalText j) = some w ∧ compress w &&& mask ≠ 0#32

/-- R223, R228 and R229: how a search fails. CounterOverflow only after every counter of COUNTER_BITS bits was tried and none
passed; MessageOverflow only at a candidate of 56 bytes or more, every counter before it having been tried. -/
def Obligations.SearchFailsOnlyByOverflow : Prop :=
  ∀ (cb : Nat) (seed : Seed) (mask : Word) (e : SearchError), 1 ≤ cb → search cb seed mask = .error e →
    (e = .counterOverflow ∧ ∀ j, 1 ≤ j → j ≤ 2 ^ cb - 1 →
      ∃ w, packBlock (seed.bytes ++ decimalText j) = some w ∧ compress w &&& mask ≠ 0#32) ∨
    (e = .messageOverflow ∧ ∃ i, 1 ≤ i ∧ i ≤ 2 ^ cb - 1 ∧ 56 ≤ (seed.bytes ++ decimalText i).length ∧ ∀ j, 1 ≤ j → j < i →
      ∃ w, packBlock (seed.bytes ++ decimalText j) = some w ∧ compress w &&& mask ≠ 0#32)

/-- R236: a candidate of a constructed seed has 56 bytes or more only from the counter 10^35 on, so with at most 116 counter bits
no search ends in MessageOverflow. -/
def Obligations.MessageOverflowNeedsMoreThan116CounterBits : Prop :=
  (∀ (seed : Seed) (i : Nat), 56 ≤ (seed.bytes ++ decimalText i).length → 10 ^ 35 ≤ i) ∧
  (∀ (cb : Nat) (seed : Seed) (mask : Word), cb ≤ 116 → search cb seed mask ≠ .error .messageOverflow)

/-- R232: for any fixed seed, the stricter mask never finds a smaller counter. -/
def Obligations.StricterMaskNeverFindsEarlier : Prop :=
  ∀ (cb : Nat) (seed : Seed) (i : Nat), search cb seed 0x00FFFFFF#32 = .ok i →
    ∃ j, search cb seed 0x00F0FFFF#32 = .ok j ∧ j ≤ i

/-- R227: the seed is checked when it is constructed: more than 20 bytes are rejected and echoed, at most 20 give the seed of
these bytes; and every seed that `search` and `solve` can be called on passed this check. -/
def Obligations.SeedIsCheckedAtConstruction : Prop :=
  (∀ bytes : List Byte, 20 < bytes.length → Seed.construct bytes = .error (.seedTooLong bytes)) ∧
  (∀ bytes : List Byte, bytes.length ≤ 20 → ∃ seed : Seed, Seed.construct bytes = .ok seed ∧ seed.bytes = bytes) ∧
  (∀ seed : Seed, seed.bytes.length ≤ 20 ∧ Seed.construct seed.bytes = .ok seed)

/-- R226 and R227: a host that constructs a seed of more than 20 bytes is told so with the seed echoed; `solve` uses the mask of
its variant and answers the decimal text of the search's counter; a variant other than 1 and 2 is refused. -/
def Obligations.SolveChecksTheSeedAndUsesTheVariantsMask : Prop :=
  (∀ (cb : Nat) (bytes : List Byte) (variant : Nat), 20 < bytes.length →
    constructAndSolve cb bytes variant = .error (.seedTooLong bytes)) ∧
  (∀ (cb : Nat) (bytes : List Byte) (variant : Nat) (seed : Seed), Seed.construct bytes = .ok seed →
    constructAndSolve cb bytes variant = solve cb seed variant) ∧
  ∀ (cb : Nat) (seed : Seed) (variant : Nat),
    (variant = 1 → ∀ i, search cb seed 0x00F0FFFF#32 = .ok i → solve cb seed variant = .ok (decimalText i)) ∧
    (variant = 2 → ∀ i, search cb seed 0x00FFFFFF#32 = .ok i → solve cb seed variant = .ok (decimalText i)) ∧
    (variant = 1 → ∀ e, search cb seed 0x00F0FFFF#32 = .error e → solve cb seed variant = .error e) ∧
    (variant = 2 → ∀ e, search cb seed 0x00FFFFFF#32 = .error e → solve cb seed variant = .error e) ∧
    (variant ≠ 1 → variant ≠ 2 → solve cb seed variant = .error (.variantOutsideContract variant))

/-- R234: a search split into any disjoint, ordered ranges of the counters up to a bound and reduced to the smallest successful
counter answers what one search up to that bound answers (R223, R231), the errors too; with the bound of COUNTER_BITS it is
`search`. Which error a split search answers is the model's choice (log entry 24). -/
def Obligations.SplitSearchFindsTheSameCounter : Prop :=
  (∀ (bound : Nat) (seed : Seed) (mask : Word) (ranges : List CounterRange), 1 ≤ bound → partitions bound 1 ranges = true →
    splitSearch seed mask ranges = searchUpTo bound seed mask) ∧
  (∀ (cb : Nat) (seed : Seed) (mask : Word) (ranges : List CounterRange), 1 ≤ cb →
    partitions (2 ^ cb - 1) 1 ranges = true → splitSearch seed mask ranges = search cb seed mask)

/-- R234: what `partitions` says of ranges: every counter of the domain is in exactly one of them, and no other number is in any. -/
def Obligations.RangesPartitionTheCounters : Prop :=
  ∀ (last : Nat) (ranges : List CounterRange), partitions last 1 ranges = true →
    ranges.Pairwise (fun r q => r.first + r.size ≤ q.first) ∧
    ∀ i, (1 ≤ i ∧ i ≤ last ↔ ∃ r ∈ ranges, r.first ≤ i ∧ i < r.first + r.size)

/-- R234 with R35 and R224: on a platform of idle engines, one worker for each range on an engine of its own, under every order
of the workers' turns: no turn faults, an answer is what `search` answers, and some order of turns reaches it. Each engine's own
turns are the model's after its schedule (log entry 2). -/
def Obligations.SplitSearchOnThePlatformIsTheReferenceSearch : Prop :=
  ∀ (cb : Nat) (seed : Seed) (mask : Word) (ranges : List CounterRange) (pl : Platform) (sp : SplitSearch), 1 ≤ cb →
    (∀ e ∈ pl.engines, e.machine.hce.busy = false ∧ e.machine.pending = [] ∧ e.machine.schedule = []) →
    SplitSearch.start cb ranges pl = .ok sp →
    (∀ turns : List Nat, ∃ sp' : SplitSearch, SplitSearch.run seed mask turns sp = .next sp' ∧
      ∀ r, sp'.answer = some r → r = search cb seed mask) ∧
    (∃ (turns : List Nat) (sp' : SplitSearch), SplitSearch.run seed mask turns sp = .next sp' ∧
      sp'.answer = some (search cb seed mask))

/-- R224: the search run on the HCE, from any idle state with nothing else to do, answers what the reference search answers, if
the host's turns are enough. -/
def Obligations.SearchOnTheHceIsTheReferenceSearch : Prop :=
  ∀ (cb : Nat) (seed : Seed) (mask : Word) (s : State),
    s.hce.busy = false → s.pending = [] → s.schedule = [] →
    ∃ fuel, ∀ more, ∃ t,
      searchOnHce (fuel + more) cb seed mask s =
        .next ((match search cb seed mask with | .ok i => .found i | .error e => .failed e), t)

/-! ### A platform of several engines -/

/-- R35 and R264: a step of one engine leaves every other engine, and every base, as it was. -/
def Obligations.EnginesOfAPlatformAreIndependent : Prop :=
  ∀ (pl pl' : Platform) (n : Nat), pl.stepEngine n = .next pl' →
    pl'.engines.map PlatformEngine.base = pl.engines.map PlatformEngine.base ∧
    (∀ k, k ≠ n → pl'.engines[k]? = pl.engines[k]?) ∧
    (∀ e, pl.engines[n]? = some e → ∃ t, step e.machine = .next t ∧ pl'.engines[n]? = some { e with machine := t })

/-- R51: an address in the window of an engine selects its offset there, and no other engine of a platform with the parameters of
R9 is concerned; an address in no window changes nothing. -/
def Obligations.AddressSelectsAtMostOneEngine : Prop :=
  (∀ (base : Nat) (off : BitVec 8), windowOffset base (base + off.toNat) = some off) ∧
  (∀ base addr, addr < base ∨ base + 256 ≤ addr → windowOffset base addr = none) ∧
  (∀ (p : Config.Params) (pl : Platform) (addr i j : Nat) (e f : PlatformEngine), pl.wf p = true →
    pl.engines[i]? = some e → pl.engines[j]? = some f →
    (windowOffset e.base addr).isSome = true → (windowOffset f.base addr).isSome = true → i = j) ∧
  (∀ (pl : Platform) (write : Bool) (width : Width) (addr : Nat) (data : Word),
    (∀ e ∈ pl.engines, windowOffset e.base addr = none) → pl.issue write width addr data = pl)
end

