-- ==== Sys2Proof/Laws/State.lean ====
section
/-!
SUPPORT. One lemma for each field and each update of State and Hce, so that a later proof unfolds no record update.
-/

namespace Sys2Proof.Machine

/-! ### Updates of State -/

@[simp] theorem State.withHce_hce (s : State) (h : Hce) : (s.withHce h).hce = h := rfl
@[simp] theorem State.withHce_pending (s : State) (h : Hce) : (s.withHce h).pending = s.pending := rfl
@[simp] theorem State.withHce_schedule (s : State) (h : Hce) : (s.withHce h).schedule = s.schedule := rfl
@[simp] theorem State.withHce_reads (s : State) (h : Hce) : (s.withHce h).reads = s.reads := rfl
@[simp] theorem State.returnData_hce (s : State) (v : Word) : (s.returnData v).hce = s.hce := rfl
@[simp] theorem State.returnData_pending (s : State) (v : Word) : (s.returnData v).pending = s.pending := rfl
@[simp] theorem State.returnData_schedule (s : State) (v : Word) : (s.returnData v).schedule = s.schedule := rfl
@[simp] theorem State.returnData_reads (s : State) (v : Word) : (s.returnData v).reads = v :: s.reads := rfl
@[simp] theorem State.resetHce_hce (s : State) : s.resetHce.hce = Hce.reset := rfl
@[simp] theorem State.resetHce_pending (s : State) : s.resetHce.pending = s.pending := rfl
@[simp] theorem State.resetHce_schedule (s : State) : s.resetHce.schedule = s.schedule := rfl
@[simp] theorem State.resetHce_reads (s : State) : s.resetHce.reads = s.reads := rfl
@[simp] theorem State.submit_hce (s : State) (p : List HostAsm) : (s.submit p).hce = s.hce := rfl
@[simp] theorem State.submit_pending (s : State) (p : List HostAsm) : (s.submit p).pending = s.pending ++ assemble p := rfl
@[simp] theorem State.submit_schedule (s : State) (p : List HostAsm) : (s.submit p).schedule = s.schedule := rfl
@[simp] theorem State.submit_reads (s : State) (p : List HostAsm) : (s.submit p).reads = s.reads := rfl

@[simp] theorem State.withHce_self (s : State) : s.withHce s.hce = s := rfl
@[simp] theorem State.withHce_withHce (s : State) (h h' : Hce) : (s.withHce h).withHce h' = s.withHce h' := rfl


/-! ### setCerr -/

@[simp] theorem Hce.setCerr_work (h : Hce) : h.setCerr.work = h.work := rfl
@[simp] theorem Hce.setCerr_w (h : Hce) : h.setCerr.w = h.w := rfl
@[simp] theorem Hce.setCerr_msg (h : Hce) : h.setCerr.msg = h.msg := rfl
@[simp] theorem Hce.setCerr_len (h : Hce) : h.setCerr.len = h.len := rfl
@[simp] theorem Hce.setCerr_rnd (h : Hce) : h.setCerr.rnd = h.rnd := rfl
@[simp] theorem Hce.setCerr_result (h : Hce) : h.setCerr.result = h.result := rfl
@[simp] theorem Hce.setCerr_busy (h : Hce) : h.setCerr.busy = h.busy := rfl
@[simp] theorem Hce.setCerr_done (h : Hce) : h.setCerr.done = h.done := rfl
@[simp] theorem Hce.setCerr_perr (h : Hce) : h.setCerr.perr = h.perr := rfl
@[simp] theorem Hce.setCerr_cerr (h : Hce) : h.setCerr.cerr = true := rfl

/-! ### setPerr -/

@[simp] theorem Hce.setPerr_work (h : Hce) : h.setPerr.work = h.work := rfl
@[simp] theorem Hce.setPerr_w (h : Hce) : h.setPerr.w = h.w := rfl
@[simp] theorem Hce.setPerr_msg (h : Hce) : h.setPerr.msg = h.msg := rfl
@[simp] theorem Hce.setPerr_len (h : Hce) : h.setPerr.len = h.len := rfl
@[simp] theorem Hce.setPerr_rnd (h : Hce) : h.setPerr.rnd = h.rnd := rfl
@[simp] theorem Hce.setPerr_result (h : Hce) : h.setPerr.result = h.result := rfl
@[simp] theorem Hce.setPerr_busy (h : Hce) : h.setPerr.busy = h.busy := rfl
@[simp] theorem Hce.setPerr_done (h : Hce) : h.setPerr.done = h.done := rfl
@[simp] theorem Hce.setPerr_perr (h : Hce) : h.setPerr.perr = true := rfl
@[simp] theorem Hce.setPerr_cerr (h : Hce) : h.setPerr.cerr = h.cerr := rfl

/-! ### clearErrors -/

@[simp] theorem Hce.clearErrors_work (h : Hce) : h.clearErrors.work = h.work := rfl
@[simp] theorem Hce.clearErrors_w (h : Hce) : h.clearErrors.w = h.w := rfl
@[simp] theorem Hce.clearErrors_msg (h : Hce) : h.clearErrors.msg = h.msg := rfl
@[simp] theorem Hce.clearErrors_len (h : Hce) : h.clearErrors.len = h.len := rfl
@[simp] theorem Hce.clearErrors_rnd (h : Hce) : h.clearErrors.rnd = h.rnd := rfl
@[simp] theorem Hce.clearErrors_result (h : Hce) : h.clearErrors.result = h.result := rfl
@[simp] theorem Hce.clearErrors_busy (h : Hce) : h.clearErrors.busy = h.busy := rfl
@[simp] theorem Hce.clearErrors_done (h : Hce) : h.clearErrors.done = h.done := rfl
@[simp] theorem Hce.clearErrors_perr (h : Hce) : h.clearErrors.perr = false := rfl
@[simp] theorem Hce.clearErrors_cerr (h : Hce) : h.clearErrors.cerr = false := rfl

/-! ### writeW -/

@[simp] theorem Hce.writeW_work (h : Hce) (k : BitVec 4) (v : Word) : (h.writeW k v).work = h.work := rfl
@[simp] theorem Hce.writeW_w (h : Hce) (k : BitVec 4) (v : Word) : (h.writeW k v).w = h.w.set k.toNat v := rfl
@[simp] theorem Hce.writeW_msg (h : Hce) (k : BitVec 4) (v : Word) : (h.writeW k v).msg = h.msg := rfl
@[simp] theorem Hce.writeW_len (h : Hce) (k : BitVec 4) (v : Word) : (h.writeW k v).len = h.len := rfl
@[simp] theorem Hce.writeW_rnd (h : Hce) (k : BitVec 4) (v : Word) : (h.writeW k v).rnd = h.rnd := rfl
@[simp] theorem Hce.writeW_result (h : Hce) (k : BitVec 4) (v : Word) : (h.writeW k v).result = h.result := rfl
@[simp] theorem Hce.writeW_busy (h : Hce) (k : BitVec 4) (v : Word) : (h.writeW k v).busy = h.busy := rfl
@[simp] theorem Hce.writeW_done (h : Hce) (k : BitVec 4) (v : Word) : (h.writeW k v).done = h.done := rfl
@[simp] theorem Hce.writeW_perr (h : Hce) (k : BitVec 4) (v : Word) : (h.writeW k v).perr = h.perr := rfl
@[simp] theorem Hce.writeW_cerr (h : Hce) (k : BitVec 4) (v : Word) : (h.writeW k v).cerr = h.cerr := rfl

/-! ### clearMessage -/

@[simp] theorem Hce.clearMessage_work (h : Hce) : h.clearMessage.work = h.work := rfl
@[simp] theorem Hce.clearMessage_w (h : Hce) : h.clearMessage.w = h.w := rfl
@[simp] theorem Hce.clearMessage_msg (h : Hce) : h.clearMessage.msg = h.msg := rfl
@[simp] theorem Hce.clearMessage_len (h : Hce) : h.clearMessage.len = 0#6 := rfl
@[simp] theorem Hce.clearMessage_rnd (h : Hce) : h.clearMessage.rnd = h.rnd := rfl
@[simp] theorem Hce.clearMessage_result (h : Hce) : h.clearMessage.result = h.result := rfl
@[simp] theorem Hce.clearMessage_busy (h : Hce) : h.clearMessage.busy = h.busy := rfl
@[simp] theorem Hce.clearMessage_done (h : Hce) : h.clearMessage.done = h.done := rfl
@[simp] theorem Hce.clearMessage_perr (h : Hce) : h.clearMessage.perr = false := rfl
@[simp] theorem Hce.clearMessage_cerr (h : Hce) : h.clearMessage.cerr = false := rfl

/-! ### packMessage -/

@[simp] theorem Hce.packMessage_work (h : Hce) : h.packMessage.work = h.work := rfl
@[simp] theorem Hce.packMessage_w (h : Hce) : h.packMessage.w = blockOf (pad h.message) := rfl
@[simp] theorem Hce.packMessage_msg (h : Hce) : h.packMessage.msg = h.msg := rfl
@[simp] theorem Hce.packMessage_len (h : Hce) : h.packMessage.len = h.len := rfl
@[simp] theorem Hce.packMessage_rnd (h : Hce) : h.packMessage.rnd = h.rnd := rfl
@[simp] theorem Hce.packMessage_result (h : Hce) : h.packMessage.result = h.result := rfl
@[simp] theorem Hce.packMessage_busy (h : Hce) : h.packMessage.busy = h.busy := rfl
@[simp] theorem Hce.packMessage_done (h : Hce) : h.packMessage.done = h.done := rfl
@[simp] theorem Hce.packMessage_perr (h : Hce) : h.packMessage.perr = h.perr := rfl
@[simp] theorem Hce.packMessage_cerr (h : Hce) : h.packMessage.cerr = h.cerr := rfl

/-! ### beginRun -/

@[simp] theorem Hce.beginRun_work (h : Hce) : h.beginRun.work = IV := rfl
@[simp] theorem Hce.beginRun_w (h : Hce) : h.beginRun.w = h.w := rfl
@[simp] theorem Hce.beginRun_msg (h : Hce) : h.beginRun.msg = h.msg := rfl
@[simp] theorem Hce.beginRun_len (h : Hce) : h.beginRun.len = h.len := rfl
@[simp] theorem Hce.beginRun_rnd (h : Hce) : h.beginRun.rnd = 0#7 := rfl
@[simp] theorem Hce.beginRun_result (h : Hce) : h.beginRun.result = h.result := rfl
@[simp] theorem Hce.beginRun_busy (h : Hce) : h.beginRun.busy = true := rfl
@[simp] theorem Hce.beginRun_done (h : Hce) : h.beginRun.done = false := rfl
@[simp] theorem Hce.beginRun_perr (h : Hce) : h.beginRun.perr = h.perr := rfl
@[simp] theorem Hce.beginRun_cerr (h : Hce) : h.beginRun.cerr = h.cerr := rfl

/-! ### complete -/

@[simp] theorem Hce.complete_work (h : Hce) : h.complete.work = h.work := rfl
@[simp] theorem Hce.complete_w (h : Hce) : h.complete.w = h.w := rfl
@[simp] theorem Hce.complete_msg (h : Hce) : h.complete.msg = h.msg := rfl
@[simp] theorem Hce.complete_len (h : Hce) : h.complete.len = h.len := rfl
@[simp] theorem Hce.complete_rnd (h : Hce) : h.complete.rnd = h.rnd := rfl
@[simp] theorem Hce.complete_result (h : Hce) : h.complete.result = h.work.a + IV.a := rfl
@[simp] theorem Hce.complete_busy (h : Hce) : h.complete.busy = false := rfl
@[simp] theorem Hce.complete_done (h : Hce) : h.complete.done = true := rfl
@[simp] theorem Hce.complete_perr (h : Hce) : h.complete.perr = h.perr := rfl
@[simp] theorem Hce.complete_cerr (h : Hce) : h.complete.cerr = h.cerr := rfl

/-! ### appendByte: MSG and LEN change, if at all -/

@[simp] theorem Hce.appendByte_work (h : Hce) (b : Byte) : (h.appendByte b).work = h.work := by
  unfold Hce.appendByte; split <;> rfl
@[simp] theorem Hce.appendByte_w (h : Hce) (b : Byte) : (h.appendByte b).w = h.w := by
  unfold Hce.appendByte; split <;> rfl
@[simp] theorem Hce.appendByte_rnd (h : Hce) (b : Byte) : (h.appendByte b).rnd = h.rnd := by
  unfold Hce.appendByte; split <;> rfl
@[simp] theorem Hce.appendByte_result (h : Hce) (b : Byte) : (h.appendByte b).result = h.result := by
  unfold Hce.appendByte; split <;> rfl
@[simp] theorem Hce.appendByte_busy (h : Hce) (b : Byte) : (h.appendByte b).busy = h.busy := by
  unfold Hce.appendByte; split <;> rfl
@[simp] theorem Hce.appendByte_done (h : Hce) (b : Byte) : (h.appendByte b).done = h.done := by
  unfold Hce.appendByte; split <;> rfl
@[simp] theorem Hce.appendByte_perr (h : Hce) (b : Byte) : (h.appendByte b).perr = h.perr := by
  unfold Hce.appendByte; split <;> rfl
@[simp] theorem Hce.appendByte_cerr (h : Hce) (b : Byte) : (h.appendByte b).cerr = h.cerr := by
  unfold Hce.appendByte; split <;> rfl

theorem Hce.appendByte_fits {h : Hce} (b : Byte) (lt : h.len.toNat < 56) :
    h.appendByte b = { h with msg := h.msg.set h.len.toNat b lt, len := h.len + 1#6 } := by
  unfold Hce.appendByte; rw [dif_pos lt]

theorem Hce.appendByte_full {h : Hce} (b : Byte) (ge : ¬ h.len.toNat < 56) : h.appendByte b = h := by
  unfold Hce.appendByte; rw [dif_neg ge]

/-! ### roundStep -/

@[simp] theorem Hce.roundStep_w (h : Hce) (i : Fin 64) : (h.roundStep i).w = h.w := by
  unfold Hce.roundStep; simp only []; split <;> rfl
@[simp] theorem Hce.roundStep_msg (h : Hce) (i : Fin 64) : (h.roundStep i).msg = h.msg := by
  unfold Hce.roundStep; simp only []; split <;> rfl
@[simp] theorem Hce.roundStep_len (h : Hce) (i : Fin 64) : (h.roundStep i).len = h.len := by
  unfold Hce.roundStep; simp only []; split <;> rfl
@[simp] theorem Hce.roundStep_perr (h : Hce) (i : Fin 64) : (h.roundStep i).perr = h.perr := by
  unfold Hce.roundStep; simp only []; split <;> rfl
@[simp] theorem Hce.roundStep_cerr (h : Hce) (i : Fin 64) : (h.roundStep i).cerr = h.cerr := by
  unfold Hce.roundStep; simp only []; split <;> rfl

@[simp] theorem Hce.roundStep_work (h : Hce) (i : Fin 64) : (h.roundStep i).work = roundOf i h.work h.w := by
  unfold Hce.roundStep; simp only []; split <;> rfl
@[simp] theorem Hce.roundStep_rnd (h : Hce) (i : Fin 64) : (h.roundStep i).rnd = BitVec.ofNat 7 (i.val + 1) := by
  unfold Hce.roundStep; simp only []; split <;> rfl
theorem Hce.roundStep_busy (h : Hce) (i : Fin 64) : (h.roundStep i).busy = (h.busy && decide (i.val ≠ 63)) := by
  unfold Hce.roundStep; simp only []; split <;> simp [*]
theorem Hce.roundStep_done (h : Hce) (i : Fin 64) : (h.roundStep i).done = (h.done || decide (i.val = 63)) := by
  unfold Hce.roundStep; simp only []; split <;> simp [*]
theorem Hce.roundStep_result (h : Hce) (i : Fin 64) :
    (h.roundStep i).result = if i.val = 63 then (roundOf i h.work h.w).a + IV.a else h.result := by
  unfold Hce.roundStep; simp only []; split <;> rfl

end Sys2Proof.Machine
end

