-- ==== Sys2Proof/Laws/Datapath.lean ====
section
/-!
SUPPORT. Small lemmas of the packer and of the compression datapath.
-/

namespace Sys2Proof.Machine

theorem Hce.message_length (h : Hce) (le : h.len.toNat ≤ 56) : h.message.length = h.len.toNat := by
  simp [Hce.message, le]

/-- R121: the padded buffer of an accepted message has 64 bytes. -/
theorem pad_length {m : List Byte} (le : m.length ≤ 55) : (pad m).length = 64 := by
  simp [pad, leBytes]; omega

@[simp] theorem blockOf_getElem (p : List Byte) (k : Nat) (lt : k < 16) : (blockOf p)[k] = leWord p k := by
  simp [blockOf]

@[simp] theorem rounds_zero (w : Vector Word 16) : rounds w 0 = IV := rfl

theorem rounds_succ (w : Vector Word 16) {n : Nat} (lt : n < 64) :
    rounds w (n + 1) = roundOf ⟨n, lt⟩ (rounds w n) w := by
  simp [rounds, lt]

/-! ### The message is what MSG and LEN are, so an update of anything else leaves it -/

@[simp] theorem Hce.setCerr_message (h : Hce) : h.setCerr.message = h.message := by
  simp only [Hce.message, Hce.setCerr_msg, Hce.setCerr_len]
@[simp] theorem Hce.setPerr_message (h : Hce) : h.setPerr.message = h.message := by
  simp only [Hce.message, Hce.setPerr_msg, Hce.setPerr_len]
@[simp] theorem Hce.packMessage_message (h : Hce) : h.packMessage.message = h.message := by
  simp only [Hce.message, Hce.packMessage_msg, Hce.packMessage_len]
@[simp] theorem Hce.beginRun_message (h : Hce) : h.beginRun.message = h.message := by
  simp only [Hce.message, Hce.beginRun_msg, Hce.beginRun_len]
@[simp] theorem Hce.complete_message (h : Hce) : h.complete.message = h.message := by
  simp only [Hce.message, Hce.complete_msg, Hce.complete_len]
@[simp] theorem Hce.writeW_message (h : Hce) (k : BitVec 4) (v : Word) : (h.writeW k v).message = h.message := by
  simp only [Hce.message, Hce.writeW_msg, Hce.writeW_len]
@[simp] theorem Hce.roundStep_message (h : Hce) (i : Fin 64) : (h.roundStep i).message = h.message := by
  simp only [Hce.message, Hce.roundStep_msg, Hce.roundStep_len]

@[simp] theorem Hce.clearMessage_message (h : Hce) : h.clearMessage.message = [] := by
  simp [Hce.message]

/-- Appending to a message that is not full puts the byte at its end. -/
theorem Hce.appendByte_message {h : Hce} (b : Byte) (lt : h.len.toNat < 56) :
    (h.appendByte b).message = h.message ++ [b] := by
  have hlen : (h.len + 1#6).toNat = h.len.toNat + 1 := by
    rw [BitVec.toNat_add]; simp; omega
  simp only [Hce.message, Hce.appendByte_fits b lt, hlen, Vector.toList_set]
  rw [List.take_succ_eq_append_getElem (by simpa using lt), List.take_set_of_le (Nat.le_refl _)]
  simp

theorem packBlock_fits {m : List Byte} (lt : m.length < 56) : packBlock m = some (blockOf (pad m)) := by
  simp [packBlock, lt]

theorem packBlock_too_long {m : List Byte} (ge : 56 ≤ m.length) : packBlock m = none := by
  simp [packBlock]; omega

/-- R121, byte by byte. -/
theorem pad_getElem? {m : List Byte} (le : m.length ≤ 55) (j : Nat) : (pad m)[j]? =
    if lt : j < m.length then some m[j] else if j = m.length then some 0x80#8 else if j < 56 then some 0x00#8
    else if j < 60 then some (byteOf (BitVec.ofNat 32 (8 * m.length)) (j - 56)) else if j < 64 then some 0x00#8 else none := by
  unfold pad
  simp only [List.append_assoc]
  split_ifs with h1 h2 h3 h4 h5
  · rw [List.getElem?_append_left h1]; simp
  · subst h2; rw [List.getElem?_append_right (Nat.le_refl _)]; simp
  · rw [List.getElem?_append_right (by omega), List.getElem?_append_right (by simp; omega),
      List.getElem?_append_left (by simp; omega), List.getElem?_replicate, if_pos (by simp; omega)]
  · rw [List.getElem?_append_right (by omega), List.getElem?_append_right (by simp; omega),
      List.getElem?_append_right (by simp; omega), List.getElem?_append_left (by simp [leBytes]; omega)]
    simp only [List.length_cons, List.length_nil, List.length_replicate]
    rw [show j - m.length - (0 + 1) - (55 - m.length) = j - 56 by omega]
    obtain ⟨q, rfl⟩ : ∃ q, j = 56 + q := ⟨j - 56, by omega⟩
    have : q < 4 := by omega
    interval_cases q <;> simp [leBytes]
  · rw [List.getElem?_append_right (by omega), List.getElem?_append_right (by simp; omega),
      List.getElem?_append_right (by simp; omega), List.getElem?_append_right (by simp [leBytes]; omega),
      List.getElem?_replicate, if_pos (by simp [leBytes]; omega)]
  · rw [List.getElem?_eq_none]; simp [leBytes]; omega

/-! ### What the host can observe of two HCE states that agree in it -/

theorem Hce.sameVisible_statusWord {h h' : Hce} (e : h.sameVisible h') : h.statusWord = h'.statusWord := by
  obtain ⟨-, hl, hr, -, hb, hd, hp, hc, -, -⟩ := e
  simp [Hce.statusWord, Hce.mfull, hl, hr, hb, hd, hp, hc]

/-- Two next states whose HCEs agree in everything visible, with the same host side, are the same outcome. -/
theorem sameOutcome_withHce {s s' : State} {h h' : Hce} (e : h.sameVisible h') (hp : s.pending = s'.pending)
    (hs : s.schedule = s'.schedule) (hr : s.reads = s'.reads) :
    sameOutcome (.next (s.withHce h)) (.next (s'.withHce h')) := ⟨e, hp, hs, hr⟩

theorem Hce.sameVisible_appendByte {h h' : Hce} (e : h.sameVisible h') (b : Byte) :
    (h.appendByte b).sameVisible (h'.appendByte b) := by
  have all := e
  obtain ⟨e1, e2, e3, e4, e5, e6, e7, e8, e9, e10⟩ := e
  by_cases lt : h.len.toNat < 56
  · have lt' : h'.len.toNat < 56 := e2 ▸ lt
    refine ⟨by simpa, ?_, by simpa, by simpa, by simpa, by simpa, by simpa, by simpa, ?_, by simpa⟩
    · rw [Hce.appendByte_fits b lt, Hce.appendByte_fits b lt']; simp [e2]
    · rw [Hce.appendByte_message b lt, Hce.appendByte_message b lt', e9]
  · have lt' : ¬ h'.len.toNat < 56 := e2 ▸ lt
    rw [Hce.appendByte_full b lt, Hce.appendByte_full b lt']
    exact all

theorem Hce.sameVisible_packMessage {h h' : Hce} (e : h.sameVisible h') : h.packMessage.sameVisible h'.packMessage := by
  unfold Hce.sameVisible at *
  simp only [Hce.packMessage_message, Hce.packMessage_w, Hce.packMessage_len, Hce.packMessage_rnd, Hce.packMessage_result,
    Hce.packMessage_busy, Hce.packMessage_done, Hce.packMessage_perr, Hce.packMessage_cerr, Hce.packMessage_work]
  obtain ⟨-, e2, e3, e4, e5, e6, e7, e8, e9, e10⟩ := e
  exact ⟨by rw [e9], e2, e3, e4, e5, e6, e7, e8, e9, e10⟩

theorem Hce.sameVisible_writeW {h h' : Hce} (e : h.sameVisible h') (k : BitVec 4) (v : Word) :
    (h.writeW k v).sameVisible (h'.writeW k v) := by
  unfold Hce.sameVisible at *
  simp only [Hce.writeW_message, Hce.writeW_w, Hce.writeW_len, Hce.writeW_rnd, Hce.writeW_result, Hce.writeW_busy,
    Hce.writeW_done, Hce.writeW_perr, Hce.writeW_cerr, Hce.writeW_work]
  obtain ⟨e1, e2, e3, e4, e5, e6, e7, e8, e9, e10⟩ := e
  exact ⟨by rw [e1], e2, e3, e4, e5, e6, e7, e8, e9, e10⟩

end Sys2Proof.Machine
end

