-- ==== Sys2Proof/Laws/Fields.lean ====
section
/-!
SUPPORT. The bits of the words that are written as concatenations of fields, so that no later proof unfolds one.
-/

namespace Sys2Proof

theorem cmdWord_getLsbD (op : BitVec 4) (data : Byte) (i : Nat) : (cmdWord op data).getLsbD i =
    if i < 4 then op.getLsbD i else if i < 8 then false else data.getLsbD (i - 8) := by
  unfold cmdWord
  simp only [BitVec.getLsbD_cast, BitVec.getLsbD_append]
  simp only [Nat.sub_sub, Nat.reduceAdd]
  split_ifs <;> first | rfl | omega | (simp; done) | (rw [BitVec.getLsbD_of_ge data _ (by omega)]; simp)

/-- A word is the command word of its own OP and DATA iff both its reserved fields are 0 (R80). -/
theorem cmdWord_fields (v : Word) (rsv0 : v.extractLsb' 4 4 = 0#4) (rsv1 : v.extractLsb' 16 16 = 0#16) :
    v = cmdWord (v.extractLsb' 0 4) (cmdData v) := by
  apply BitVec.eq_of_getLsbD_eq
  intro i hi
  have h0 : ∀ j, j < 4 → v.getLsbD (4 + j) = false := fun j hj => by
    simpa [hj] using congrArg (fun x : BitVec 4 => x.getLsbD j) rsv0
  have h1 : ∀ j, j < 16 → v.getLsbD (16 + j) = false := fun j hj => by
    simpa [hj] using congrArg (fun x : BitVec 16 => x.getLsbD j) rsv1
  rw [cmdWord_getLsbD]
  split_ifs with a b
  · simp [a]
  · simpa [show 4 + (i - 4) = i by omega] using h0 (i - 4) (by omega)
  · by_cases c : i < 16
    · simp [cmdData, show i - 8 < 8 by omega, show 8 + (i - 8) = i by omega]
    · rw [BitVec.getLsbD_of_ge (cmdData v) _ (by omega)]
      simpa [show 16 + (i - 16) = i by omega] using h1 (i - 16) (by omega)

theorem and_allOnes32 (v : Word) : v &&& 0xFFFFFFFF#32 = v := by
  rw [show (0xFFFFFFFF#32) = BitVec.allOnes 32 by decide, BitVec.and_allOnes]

theorem rowNop_hit (v : Word) : rowNop.hit v = decide (v = 0x00000000#32) := by simp [Row.hit, rowNop, and_allOnes32]
theorem rowClear_hit (v : Word) : rowClear.hit v = decide (v = 0x00000001#32) := by simp [Row.hit, rowClear, and_allOnes32]
theorem rowPack_hit (v : Word) : rowPack.hit v = decide (v = 0x00000003#32) := by simp [Row.hit, rowPack, and_allOnes32]
theorem rowStart_hit (v : Word) : rowStart.hit v = decide (v = 0x00000004#32) := by simp [Row.hit, rowStart, and_allOnes32]

namespace Machine

/-- Bit by bit, the layout of STATUS (R29). -/
theorem Hce.statusWord_getLsbD (h : Hce) (i : Nat) : h.statusWord.getLsbD i =
    if i = 0 then h.busy else if i = 1 then h.done else if i = 2 then h.perr else if i = 3 then h.cerr
    else if i = 4 then h.mfull else if i < 8 then false else if i < 14 then h.len.getLsbD (i - 8)
    else if i < 16 then false else if i < 23 then h.rnd.getLsbD (i - 16) else false := by
  unfold Hce.statusWord
  simp only [BitVec.getLsbD_cast, BitVec.getLsbD_append]
  simp only [Nat.sub_sub, Nat.reduceAdd]
  by_cases h0 : i = 0
  · subst h0; simp
  by_cases h1 : i = 1
  · subst h1; simp
  by_cases h2 : i = 2
  · subst h2; simp
  by_cases h3 : i = 3
  · subst h3; simp
  by_cases h4 : i = 4
  · subst h4; simp
  split_ifs <;> first | rfl | omega | simp

/-- Byte `j` of a little-endian word is the buffer's byte `4k + j` (R56). -/
theorem byteOf_leWord (p : List Byte) (k j : Nat) (lt : j < 4) : byteOf (leWord p k) j = p.getD (4 * k + j) 0#8 := by
  apply BitVec.eq_of_getLsbD_eq
  intro i hi
  unfold byteOf leWord
  simp only [BitVec.getLsbD_extractLsb', BitVec.getLsbD_cast, BitVec.getLsbD_append, hi, decide_true, Bool.true_and]
  interval_cases j <;> simp <;> split_ifs <;> first | omega | rfl | (congr 1; omega)

theorem byteOf_getLsbD (v : Word) (j i : Nat) : (byteOf v j).getLsbD i = (decide (i < 8) && v.getLsbD (8 * j + i)) := by
  simp [byteOf]

/-- A word is determined by its four bytes. -/
theorem word_ext {v v' : Word} (h : ∀ j < 4, byteOf v j = byteOf v' j) : v = v' := by
  apply BitVec.eq_of_getLsbD_eq
  intro i hi
  have e := congrArg (fun b : Byte => b.getLsbD (i % 8)) (h (i / 8) (by omega))
  simpa only [byteOf_getLsbD, Nat.mod_lt i (show 8 > 0 by decide), decide_true, Bool.true_and, Nat.div_add_mod] using e

/-- The two spellings of an APPEND word, R80's fields and R92's shift, are one word. -/
theorem appendWord_eq (b : Byte) : appendWord b = encodeCommand (.append b) := by
  revert b; decide

/-- The two spellings of W[k]'s offset, R88's fields and R92's sum, are one offset. -/
theorem wOffsetOf_eq (k : BitVec 4) : wOffsetOf k = wOffset k := by
  revert k; decide

end Machine

end Sys2Proof
end

