-- ==== Sys2Proof/Laws/Ops.lean ====
section
/-!
SUPPORT. One lemma for each shared operation and each meaning with cases: everything it can do, said once.
-/

namespace Sys2Proof.Machine

theorem reject_next {s t : State} (h : reject s = .next t) : t = s.withHce s.hce.setCerr := by
  simpa [reject] using h.symm

theorem raiseAccessError_not_next (off : BitVec 8) (t : State) : raiseAccessError off ≠ .next t := by
  simp [raiseAccessError]

theorem execAppend_next {b : Byte} {s t : State} (h : execAppend b s = .next t) : t = s.withHce (s.hce.appendByte b) := by
  simpa [execAppend] using h.symm

/-- PACK rejects, packs or fails, in the order of R255. -/
theorem execPack_cases {s t : State} (h : execPack s = .next t) :
    (s.hce.busy = true ∧ t = s.withHce s.hce.setCerr) ∨
    (s.hce.busy = false ∧ s.hce.len.toNat < 56 ∧ t = s.withHce s.hce.packMessage) ∨
    (s.hce.busy = false ∧ ¬ s.hce.len.toNat < 56 ∧ t = s.withHce s.hce.setPerr) := by
  unfold execPack at h
  cases hb : s.hce.busy with
  | true => rw [if_pos hb] at h; exact .inl ⟨rfl, reject_next h⟩
  | false =>
    rw [if_neg (by simp [hb])] at h
    split at h
    · exact .inr (.inl ⟨rfl, ‹_›, by simpa using h.symm⟩)
    · exact .inr (.inr ⟨rfl, ‹_›, by simpa using h.symm⟩)

/-- START rejects or begins a run. -/
theorem execStart_cases {s t : State} (h : execStart s = .next t) :
    ((s.hce.busy = true ∨ s.hce.perr = true) ∧ t = s.withHce s.hce.setCerr) ∨
    (s.hce.busy = false ∧ s.hce.perr = false ∧ t = s.withHce s.hce.beginRun) := by
  unfold execStart at h
  by_cases hc : (s.hce.busy || s.hce.perr) = true
  · rw [if_pos hc] at h; exact .inl ⟨(Bool.or_eq_true _ _).mp hc, reject_next h⟩
  · rw [if_neg hc] at h
    simp only [Bool.or_eq_true, not_or, Bool.not_eq_true] at hc
    exact .inr ⟨hc.1, hc.2, by simpa using h.symm⟩

/-- A write of W is rejected or performed. -/
theorem execWrW_cases {k : BitVec 4} {v : Word} {s t : State} (h : execWrW k v s = .next t) :
    (s.hce.busy = true ∧ t = s.withHce s.hce.setCerr) ∨
    (s.hce.busy = false ∧ t = s.withHce (s.hce.writeW k v)) := by
  unfold execWrW at h
  cases hb : s.hce.busy with
  | true => rw [if_pos hb] at h; exact .inl ⟨rfl, reject_next h⟩
  | false => rw [if_neg (by simp [hb])] at h; exact .inr ⟨rfl, by simpa using h.symm⟩

/-- WR_CMD performs the command its word is, or rejects an illegal word. -/
theorem execWrCmd_cases (v : Word) (s : State) :
    (∃ c, decodeCommand v = some c ∧ execWrCmd v s = exec c.toInstr s) ∨
    (decodeCommand v = none ∧ execWrCmd v s = reject s) := by
  unfold execWrCmd
  cases hc : decodeCommand v with
  | none => exact .inr ⟨rfl, rfl⟩
  | some c => exact .inl ⟨c, rfl, by cases c <;> rfl⟩

/-- An ENGINE turn performs nothing while idle, and one round while busy. -/
theorem engineRound_cases {s t : State} (h : engineRound s = .next t) :
    (s.hce.busy = false ∧ t = s) ∨
    (s.hce.busy = true ∧ ∃ lt : s.hce.rnd.toNat < 64, t = s.withHce (s.hce.roundStep ⟨s.hce.rnd.toNat, lt⟩)) := by
  unfold engineRound at h
  cases hb : s.hce.busy with
  | true =>
    rw [if_pos hb] at h
    split at h
    · exact .inr ⟨rfl, ‹_›, by simpa using h.symm⟩
    · simp at h
  | false => rw [if_neg (by simp [hb])] at h; exact .inl ⟨rfl, by simpa using h.symm⟩

/-- The updates an instruction can make of the HCE, each with the condition under which it is made. -/
inductive HceUpdate (h : Hce) : Hce → Prop where
  | same : HceUpdate h h
  | cerr : HceUpdate h h.setCerr
  | clear : HceUpdate h h.clearMessage
  | append (b : Byte) : HceUpdate h (h.appendByte b)
  | pack (idle : h.busy = false) (fits : h.len.toNat < 56) : HceUpdate h h.packMessage
  | packFails (idle : h.busy = false) (full : ¬ h.len.toNat < 56) : HceUpdate h h.setPerr
  | start (idle : h.busy = false) (packed : h.perr = false) : HceUpdate h h.beginRun
  | writeW (idle : h.busy = false) (k : BitVec 4) (v : Word) : HceUpdate h (h.writeW k v)

/-- A command makes one of the updates, and leaves the host's side. -/
theorem exec_command_update {c : Command} {s t : State} (h : exec c.toInstr s = .next t) :
    t.pending = s.pending ∧ t.schedule = s.schedule ∧ t.reads = s.reads ∧ HceUpdate s.hce t.hce := by
  cases c with
  | nop =>
    obtain rfl : s = t := by simpa [Command.toInstr, exec, execNop] using h
    exact ⟨rfl, rfl, rfl, .same⟩
  | clear =>
    obtain rfl : s.withHce s.hce.clearMessage = t := by simpa [Command.toInstr, exec, execClear] using h
    exact ⟨rfl, rfl, rfl, .clear⟩
  | append b =>
    obtain rfl := execAppend_next (b := b) h
    exact ⟨rfl, rfl, rfl, .append b⟩
  | pack =>
    obtain ⟨-, rfl⟩ | ⟨hb, hl, rfl⟩ | ⟨hb, hl, rfl⟩ := execPack_cases h
    · exact ⟨rfl, rfl, rfl, .cerr⟩
    · exact ⟨rfl, rfl, rfl, .pack hb hl⟩
    · exact ⟨rfl, rfl, rfl, .packFails hb hl⟩
  | start =>
    obtain ⟨-, rfl⟩ | ⟨hb, hp, rfl⟩ := execStart_cases h
    · exact ⟨rfl, rfl, rfl, .cerr⟩
    · exact ⟨rfl, rfl, rfl, .start hb hp⟩

/-- Every instruction makes one of the updates, and leaves the host's actions and the schedule. -/
theorem exec_update {i : Instr} {s t : State} (h : exec i s = .next t) :
    t.pending = s.pending ∧ t.schedule = s.schedule ∧ HceUpdate s.hce t.hce := by
  have cmd : ∀ c : Command, exec c.toInstr s = .next t →
      t.pending = s.pending ∧ t.schedule = s.schedule ∧ HceUpdate s.hce t.hce := fun c hc =>
    have e := exec_command_update hc
    ⟨e.1, e.2.1, e.2.2.2⟩
  have read : ∀ v, Host.Outcome.next (s.returnData v) = (Host.Outcome.next t : Result) →
      t.pending = s.pending ∧ t.schedule = s.schedule ∧ HceUpdate s.hce t.hce := by
    intro v hv
    obtain rfl : s.returnData v = t := by simpa using hv
    exact ⟨rfl, rfl, .same⟩
  cases i with
  | nop => exact cmd .nop h
  | clear => exact cmd .clear h
  | append b => exact cmd (.append b) h
  | pack => exact cmd .pack h
  | start => exact cmd .start h
  | wrCmd v =>
    obtain ⟨c, -, hc⟩ | ⟨-, hc⟩ := execWrCmd_cases v s
    · exact cmd c (hc.symm.trans h)
    · obtain rfl := reject_next (hc.symm.trans h)
      exact ⟨rfl, rfl, .cerr⟩
  | rdStatus => exact read _ h
  | rdResult => exact read _ h
  | rdW k => exact read _ h
  | wrW k v =>
    obtain ⟨-, rfl⟩ | ⟨hb, rfl⟩ := execWrW_cases h
    · exact ⟨rfl, rfl, .cerr⟩
    · exact ⟨rfl, rfl, .writeW hb k v⟩

/-- A bus access that the decoder reads is that instruction; any other is AccessError. -/
theorem performAccess_cases (a : Access) (s : State) :
    (∃ i, decodeAccess a = .ok i ∧ performAccess a s = exec i s) ∨
    (∃ e, decodeAccess a = .error e ∧ performAccess a s = .fault (.accessError a.off)) := by
  unfold performAccess
  cases hd : decodeAccess a with
  | ok i => exact .inl ⟨i, rfl, rfl⟩
  | error e => exact .inr ⟨e, rfl, rfl⟩

/-- Everything a HOST turn with a next state can be: nothing to do, one instruction, or one read of a poll. -/
theorem hostTurn_cases {s t : State} (h : hostTurn s = .next t) :
    (s.pending = [] ∧ t = s) ∨
    (∃ a rest i, s.pending = .access a :: rest ∧ decodeAccess a = .ok i ∧ exec i { s with pending := rest } = .next t) ∨
    (∃ rest, s.pending = .poll :: rest ∧ t.hce = s.hce ∧ t.schedule = s.schedule ∧ t.reads = s.hce.statusWord :: s.reads ∧
      t.pending = if s.hce.statusWord.getLsbD 0 then s.pending else rest) := by
  unfold hostTurn at h
  split at h
  · exact .inl ⟨‹_›, by simpa using h.symm⟩
  · rename_i a rest hp
    obtain ⟨i, hi, he⟩ | ⟨e, -, he⟩ := performAccess_cases a { s with pending := rest }
    · exact .inr (.inl ⟨a, rest, i, hp, hi, he.symm.trans h⟩)
    · exact absurd (he.symm.trans h) (by simp)
  · rename_i rest hp
    refine .inr (.inr ⟨rest, hp, ?_⟩)
    unfold pollStatus at h
    split at h <;> obtain rfl : _ = t := by simpa [exec, execRdStatus] using h
    · exact ⟨rfl, rfl, rfl, by rw [if_pos ‹_›]; rfl⟩
    · exact ⟨rfl, rfl, rfl, by rw [if_neg ‹_›]; rfl⟩

/-- A step is a turn of one agent, named by the schedule or by default. -/
theorem step_turn (s : State) :
    (∃ u rest, s.schedule = u :: rest ∧ step s = takeTurn u { s with schedule := rest }) ∨
    (s.schedule = [] ∧ step s = takeTurn (defaultTurn s) s) := by
  unfold step
  cases hs : s.schedule with
  | nil => exact .inr ⟨rfl, rfl⟩
  | cons u rest => exact .inl ⟨u, rest, rfl, rfl⟩

/-- An ENGINE turn while a run is in progress is its next round (R160). -/
theorem engineRound_busy {s : State} (busy : s.hce.busy = true) (i : Fin 64) (hi : s.hce.rnd.toNat = i.val) :
    engineRound s = .next (s.withHce (s.hce.roundStep i)) := by
  unfold engineRound
  rw [if_pos busy, dif_pos (by omega)]
  congr

/-- A poll that reads BUSY = 0 goes on (R92). -/
theorem hostTurn_poll_idle {s : State} {rest : List HostAction} (hp : s.pending = .poll :: rest)
    (read : s.hce.statusWord.getLsbD 0 = false) :
    hostTurn s = .next { s with pending := rest, reads := s.hce.statusWord :: s.reads } := by
  unfold hostTurn
  rw [hp]
  simp only [pollStatus, read]
  rfl

end Sys2Proof.Machine
end

