-- ==== Sys2Proof/Laws/PerInstr.lean ====
section
/-!
SUPPORT. Statements about every instruction as syntax, one lemma for each constructor: the encoding of an instruction belongs
to its own row of spec/opcode_table.json, and to no other row of its format.
-/

namespace Sys2Proof.Laws.OwnRow

/-- The rows of a format that an encoded instruction belongs to, in the table's order. -/
def rowsHit : Encoded → List Bool
  | .cmd v => cmdRows.map (·.hit v)
  | .bus d _ => busRows.map (·.hit d)

/-- The place of an instruction's row among the rows of its format. -/
def rowIndex : Instr → Nat
  | .nop => 0
  | .clear => 1
  | .append _ => 2
  | .pack => 3
  | .start => 4
  | .wrCmd _ => 0
  | .rdStatus => 1
  | .rdResult => 2
  | .rdW _ => 3
  | .wrW _ _ => 4

/-- The encoding of `i` hits row `rowIndex i` of its format, and only that row (R83, R89). -/
def Statement (i : Instr) : Prop :=
  rowsHit (encode i) = (List.range 5).map fun n => decide (n = rowIndex i)

theorem nop : Statement .nop := by unfold Statement; decide
theorem clear : Statement .clear := by unfold Statement; decide
theorem append (b : Byte) : Statement (.append b) := by
  revert b; unfold Statement; decide
theorem pack : Statement .pack := by unfold Statement; decide
theorem start : Statement .start := by unfold Statement; decide
theorem wrCmd (v : Word) : Statement (.wrCmd v) := by
  have h : busRows.map (·.hit (descriptor true 0x00#8)) = (List.range 5).map fun n => decide (n = 0) := by decide
  exact h
theorem rdStatus : Statement .rdStatus := by unfold Statement; decide
theorem rdResult : Statement .rdResult := by unfold Statement; decide
theorem rdW (k : BitVec 4) : Statement (.rdW k) := by
  revert k; unfold Statement; decide
theorem wrW (k : BitVec 4) (v : Word) : Statement (.wrW k v) := by
  have h : ∀ k : BitVec 4,
      busRows.map (·.hit (descriptor true (wOffset k))) = (List.range 5).map fun n => decide (n = 4) := by decide
  exact h k

end Sys2Proof.Laws.OwnRow
end

