-- ==== Sys2Proof/Laws/Run.lean ====
section
/-!
SUPPORT. How a run of several steps unfolds, and what a step is when it is the turn of one agent.
-/

namespace Sys2Proof.Machine

theorem core_run_next {n : Nat} {s t : core.State} (h : core.step s = .next t) :
    Host.Core.run core (n + 1) s = Host.Core.run core n t := by
  rw [Host.Core.run, h]

/-- One step of a longer run. -/
theorem run_next {n : Nat} {s t : State} (h : step s = .next t) :
    Host.Core.run core (n + 1) s = Host.Core.run core n t := core_run_next h

@[simp] theorem run_zero (s : State) : Host.Core.run core 0 s = .next s := rfl

/-- A run that ends in a state begins with a step that does. -/
theorem run_next_inv {n : Nat} {s t : State} (h : Host.Core.run core (n + 1) s = .next t) :
    ∃ u : State, step s = .next u ∧ Host.Core.run core n u = .next t := by
  have h' : (Host.Core.run core (n + 1) (show core.State from s)) = .next (show core.State from t) := h
  rw [Host.Core.run] at h'
  cases hs : core.step s with
  | next u => rw [hs] at h'; exact ⟨u, hs, h'⟩
  | fault r => rw [hs] at h'; cases h'
  | refused r => rw [hs] at h'; cases h'

theorem step_scheduled {s : State} {u : Turn} {turns : List Turn} (h : s.schedule = u :: turns) :
    step s = takeTurn u { s with schedule := turns } := by
  unfold step; rw [h]

theorem step_default {s : State} (h : s.schedule = []) : step s = takeTurn (defaultTurn s) s := by
  unfold step; rw [h]

/-- A write to CMD decodes to WR_CMD, whatever the word. -/
theorem decodeAccess_busWrite_cmd (v : Word) :
    decodeAccess { write := true, width := .bits 32, off := 0x00#8, data := v } = .ok (.wrCmd v) := by
  simp [decodeAccess, Access.width32, decodeBus, show rowWrCmd.hit (descriptor true 0x00#8) = true by decide]

/-- WR_CMD of a legal word is its command (R190). -/
theorem exec_wrCmd_legal {v : Word} {c : Command} (h : decodeCommand v = some c) (s : State) :
    exec (.wrCmd v) s = exec c.toInstr s := by
  obtain ⟨c', h', hc⟩ | ⟨h', -⟩ := execWrCmd_cases v s
  · obtain rfl : c = c' := by simpa using h.symm.trans h'
    exact hc
  · cases h.symm.trans h'

/-- A HOST turn whose next action writes a command word performs the command. -/
theorem hostTurn_command {v : Word} {c : Command} {s : State} {rest : List HostAction} (h : decodeCommand v = some c)
    (hp : s.pending = busWrite 0x00#8 v :: rest) : hostTurn s = exec c.toInstr { s with pending := rest } := by
  unfold hostTurn
  rw [hp]
  simp only [busWrite, performAccess, decodeAccess_busWrite_cmd]
  exact exec_wrCmd_legal h _

@[simp] theorem decodeCommand_append (b : Byte) : decodeCommand (appendWord b) = some (.append b) := by
  revert b; decide

/-- Two runs, one after the other, are one run. -/
theorem run_join {n m : Nat} {s u t : State} (h1 : Host.Core.run core n s = .next u) (h2 : Host.Core.run core m u = .next t) :
    Host.Core.run core (n + m) s = .next t := by
  induction n generalizing s with
  | zero =>
    obtain rfl : s = u := by injection h1
    simpa using h2
  | succ n ih =>
    obtain ⟨v, hv, hr⟩ := run_next_inv h1
    rw [show n + 1 + m = (n + m) + 1 by omega, run_next hv]
    exact ih hr

/-- A run that ends in a state can be cut after any number of its steps. -/
theorem run_cut {n m : Nat} {s t : State} (h : Host.Core.run core (n + m) s = .next t) :
    ∃ u : State, Host.Core.run core n s = .next u ∧ Host.Core.run core m u = .next t := by
  induction n generalizing s with
  | zero => exact ⟨s, rfl, by simpa using h⟩
  | succ n ih =>
    rw [show n + 1 + m = (n + m) + 1 by omega] at h
    obtain ⟨v, hv, hr⟩ := run_next_inv h
    obtain ⟨u, h1, h2⟩ := ih hr
    exact ⟨u, (run_next hv).trans h1, h2⟩

end Sys2Proof.Machine
end

