-- ==== Sys2Proof/Laws/Search.lean ====
section
/-!
SUPPORT. The host's search driver: what constructing a seed, trying a counter and a turn of a worker can do, each said once.
-/

namespace Sys2Proof.Machine

/-! ### Seeds -/

theorem Seed.construct_short {bytes : List Byte} (short : bytes.length ≤ 20) :
    Seed.construct bytes = .ok { bytes := bytes, short := short } := by
  unfold Seed.construct; rw [dif_pos]

theorem Seed.construct_long {bytes : List Byte} (long : 20 < bytes.length) :
    Seed.construct bytes = .error (.seedTooLong bytes) := by
  unfold Seed.construct; rw [dif_neg (Nat.not_le.mpr long)]

/-! ### Trying a counter -/

theorem maskPasses_iff (word mask : Word) : maskPasses word mask = true ↔ word &&& mask = 0#32 := by simp [maskPasses]

theorem tryCounter_cases (seed : Seed) (mask : Word) (i : Nat) :
    (tryCounter seed mask i = .overflow ∧ packBlock (candidate seed i) = none ∧ 56 ≤ (candidate seed i).length) ∨
    (∃ w, packBlock (candidate seed i) = some w ∧
      ((tryCounter seed mask i = .found ∧ compress w &&& mask = 0#32) ∨
        (tryCounter seed mask i = .miss ∧ compress w &&& mask ≠ 0#32))) := by
  unfold tryCounter
  by_cases lt : (candidate seed i).length < 56
  · rw [packBlock_fits lt]
    refine .inr ⟨_, rfl, ?_⟩
    by_cases pass : maskPasses (compress (blockOf (pad (candidate seed i)))) mask = true
    · exact .inl ⟨if_pos pass, (maskPasses_iff _ _).mp pass⟩
    · exact .inr ⟨if_neg pass, fun z => pass ((maskPasses_iff _ _).mpr z)⟩
  · rw [packBlock_too_long (Nat.not_lt.mp lt)]
    exact .inl ⟨rfl, rfl, Nat.not_lt.mp lt⟩

/-! ### The loops, one verdict at a time -/

theorem searchLoop_found {seed : Seed} {mask : Word} {i : Nat} (left : Nat) (h : tryCounter seed mask i = .found) :
    searchLoop seed mask left i = .ok i := by
  cases left <;> rw [searchLoop, h]
theorem searchLoop_overflow {seed : Seed} {mask : Word} {i : Nat} (left : Nat) (h : tryCounter seed mask i = .overflow) :
    searchLoop seed mask left i = .error .messageOverflow := by
  cases left <;> rw [searchLoop, h]
theorem searchLoop_last {seed : Seed} {mask : Word} {i : Nat} (h : tryCounter seed mask i = .miss) :
    searchLoop seed mask 0 i = .error .counterOverflow := by
  rw [searchLoop, h]
theorem searchLoop_miss {seed : Seed} {mask : Word} {i : Nat} (left : Nat) (h : tryCounter seed mask i = .miss) :
    searchLoop seed mask (left + 1) i = searchLoop seed mask left (i + 1) := by
  rw [searchLoop, h]

@[simp] theorem tryRange_empty (seed : Seed) (mask : Word) (first : Nat) : tryRange seed mask 0 first = .exhausted := rfl
theorem tryRange_found {seed : Seed} {mask : Word} {first : Nat} (size : Nat) (h : tryCounter seed mask first = .found) :
    tryRange seed mask (size + 1) first = .found first := by
  rw [tryRange, h]
theorem tryRange_overflow {seed : Seed} {mask : Word} {first : Nat} (size : Nat) (h : tryCounter seed mask first = .overflow) :
    tryRange seed mask (size + 1) first = .overflow := by
  rw [tryRange, h]
theorem tryRange_miss {seed : Seed} {mask : Word} {first : Nat} (size : Nat) (h : tryCounter seed mask first = .miss) :
    tryRange seed mask (size + 1) first = tryRange seed mask size (first + 1) := by
  rw [tryRange, h]

/-! ### Workers -/

@[simp] theorem Worker.begin_answer (counter left : Nat) : (Worker.begin counter left).answer = none := rfl
@[simp] theorem Worker.begin_phase (counter left : Nat) : (Worker.begin counter left).phase = .load := rfl
@[simp] theorem Worker.finish_answer (a : WorkerAnswer) (k : Worker) : (k.finish a).answer = some a := rfl
@[simp] theorem Worker.finish_phase (a : WorkerAnswer) (k : Worker) : (k.finish a).phase = .finished a := rfl

theorem Worker.answer_eq_some {k : Worker} {a : WorkerAnswer} : k.answer = some a ↔ k.phase = .finished a := by
  unfold Worker.answer
  cases k.phase <;> simp

/-- A worker that is done stays as it is, and so does its engine. -/
theorem Worker.turn_finished (seed : Seed) (mask : Word) {k : Worker} {a : WorkerAnswer} (h : k.answer = some a) (s : State) :
    k.turn seed mask s = .next (k, s) := by
  unfold Worker.turn
  rw [Worker.answer_eq_some.mp h]

theorem Worker.run_finished (seed : Seed) (mask : Word) {k : Worker} {a : WorkerAnswer} (h : k.answer = some a) (s : State) :
    ∀ fuel, Worker.run seed mask fuel k s = .next (k, s)
  | 0 => rfl
  | fuel + 1 => by
    rw [Worker.run, Worker.turn_finished seed mask h s]
    exact Worker.run_finished seed mask h s fuel

/-- Two runs of a worker, one after the other, are one run. -/
theorem Worker.run_join {seed : Seed} {mask : Word} {n m : Nat} {k k' k'' : Worker} {s t u : State}
    (h1 : Worker.run seed mask n k s = .next (k', t)) (h2 : Worker.run seed mask m k' t = .next (k'', u)) :
    Worker.run seed mask (n + m) k s = .next (k'', u) := by
  induction n generalizing k s with
  | zero =>
    obtain ⟨rfl, rfl⟩ : k = k' ∧ s = t := by simpa [Worker.run] using h1
    simpa using h2
  | succ n ih =>
    rw [show n + 1 + m = (n + m) + 1 by omega, Worker.run]
    rw [Worker.run] at h1
    split at h1
    · exact ih h1
    · cases h1
    · cases h1

/-- While its accesses are pending, a worker that waits steps its engine. -/
theorem Worker.turn_waits {seed : Seed} {mask : Word} {k : Worker} {s t : State} (phase : k.phase = .check ∨ k.phase = .judge)
    (pending : s.pending ≠ []) (h : step s = .next t) : k.turn seed mask s = .next (k, t) := by
  have ne : (!s.pending.isEmpty) = true := by simpa using pending
  unfold Worker.turn
  rcases phase with p | p <;> rw [p] <;> simp only [if_pos ne, Worker.wait, h]

/-! ### The ranges and the reduction -/

theorem partitions_nil (last first : Nat) : partitions last first [] = decide (first = last + 1) := rfl
theorem partitions_cons (last first : Nat) (r : CounterRange) (rs : List CounterRange) :
    partitions last first (r :: rs) = (decide (r.first = first) && partitions last (first + r.size) rs) := rfl

@[simp] theorem smallestFound_nil : smallestFound [] = none := rfl
@[simp] theorem smallestFound_cons (a : WorkerAnswer) (as : List WorkerAnswer) :
    smallestFound (a :: as) = smaller a.counter (smallestFound as) := rfl

end Sys2Proof.Machine
end

