-- ==== Sys2Proof/Tests/Slice0.lean ====
section
/-!
SUPPORT. Tests: the ill-formed accesses the checks refuse, words written out from the spec's encodings, one step of each
instruction against the vectors of 95_test_vectors.md, and for each statement with hypotheses a state and operands that meet them.
-/

set_option maxRecDepth 100000

namespace Sys2Proof.Tests

open Sys2Proof Sys2Proof.Machine

/-! ### Helpers -/

/-- The next state of a result, if it has one. -/
def nextOf : Result → Option State
  | .next s => some s
  | .fault _ => none
  | .refused _ => none

/-- The fault of a result, if it is one. -/
def faultOf : Result → Option Fault
  | .next _ => none
  | .fault r => some r
  | .refused _ => none

theorem next_exists {r : Result} (h : (nextOf r).isSome = true) : ∃ t, r = .next t := by
  cases r with
  | next t => exact ⟨t, rfl⟩
  | fault _ => cases h
  | refused _ => cases h

/-- The STATUS word after a result. -/
def statusAfter (r : Result) : Option Word := (nextOf r).map (·.hce.statusWord)

/-- A state with the given HCE and an idle host. -/
def st (h : Hce) : State := { hce := h, pending := [], schedule := [], reads := [] }

/-- A 32-bit read and a 32-bit write. -/
def rd (off : BitVec 8) : Access := { write := false, width := .bits 32, off := off, data := 0#32 }
def wr (off : BitVec 8) (v : Word) : Access := { write := true, width := .bits 32, off := off, data := v }

/-- The HCE with a message loaded. -/
def loaded (m : List Byte) : Hce := m.foldl Hce.appendByte Hce.reset

/-- The bytes of "abc" and of "abcdef609043". -/
def abc : List Byte := [0x61#8, 0x62#8, 0x63#8]
def golden : List Byte :=
  [0x61#8, 0x62#8, 0x63#8, 0x64#8, 0x65#8, 0x66#8, 0x36#8, 0x30#8, 0x39#8, 0x30#8, 0x34#8, 0x33#8]

/-- The block of L2-P5, and a busy HCE at the start of a run over it. -/
def goldenBlock : Vector Word 16 :=
  #v[0x64636261#32, 0x30366665#32, 0x33343039#32, 0x00000080#32, 0, 0, 0, 0, 0, 0, 0, 0, 0, 0, 0x60#32, 0]
def running : Hce := { Hce.reset with w := goldenBlock, work := IV, busy := true, len := 12#6 }

/-- L2-T, the state after round 62 of L1-1. -/
def lastRound : Hce :=
  { running with
    work := { a := 0xf80dfb4a#32, b := 0xcb95503c#32, c := 0xfe7e72b3#32, d := 0x73bbdcff#32 }
    rnd := 63#7 }

/-- A full message buffer, idle; and the same after its PACK failed. -/
def full : Hce := { Hce.reset with len := 56#6 }
def failed : Hce := { full with perr := true }

/-- A completed run: the invariants I1 to I5 hold of it. -/
def completed : Hce := { Hce.reset with rnd := 64#7, result := 0x67452301#32, done := true }

/-! ### WellFormed: an ill-formed access for each check, which the check refuses -/

theorem test_width32_refuses_byte : ({ rd 0x04#8 with width := .bits 8 } : Access).width32 = false := by decide
theorem test_width32_refuses_double : ({ wr 0x40#8 0#32 with width := .bits 64 } : Access).width32 = false := by decide
theorem test_width32_refuses_burst : ({ rd 0x40#8 with width := .burst } : Access).width32 = false := by decide
theorem test_aligned_refuses : (rd 0x02#8).aligned = false ∧ (rd 0x43#8).aligned = false := by decide
theorem test_mapped_refuses :
    (rd 0x00#8).mapped = false ∧ (wr 0x04#8 0#32).mapped = false ∧ (wr 0x08#8 0#32).mapped = false ∧
    (rd 0x0C#8).mapped = false ∧ (wr 0x3C#8 0#32).mapped = false ∧ (rd 0x80#8).mapped = false ∧ (rd 0xFC#8).mapped = false := by
  decide
theorem test_wellFormed_accepts : (wr 0x00#8 0#32).wellFormed = true ∧ (rd 0x7C#8).wellFormed = true := by decide

/-! ### Decoding: words written out bit by bit from R80, R83, R87 and R89 -/

theorem test_decode_nop : decodeTableWord 32 0b00000000000000000000000000000000 = some .nop := by decide
theorem test_decode_clear : decodeTableWord 32 0b00000000000000000000000000000001 = some .clear := by decide
/-- L2-K4: 0x0000ff02. -/
theorem test_decode_append : decodeTableWord 32 0b00000000000000001111111100000010 = some (.append 0xFF#8) := by decide
theorem test_decode_pack : decodeTableWord 32 0b00000000000000000000000000000011 = some .pack := by decide
theorem test_decode_start : decodeTableWord 32 0b00000000000000000000000000000100 = some .start := by decide
/-- Descriptor 1 0000 0000, with the bus word of R190's example, 0x00006102. -/
theorem test_decode_wrCmd : decodeTableWord 48 0x00006102_0100 = some (.wrCmd 0x00006102#32) := by decide
theorem test_decode_rdStatus : decodeTableWord 16 0b000000100 = some .rdStatus := by decide
theorem test_decode_rdResult : decodeTableWord 16 0b000001000 = some .rdResult := by decide
/-- 0x07C: 0 01 1111 00. -/
theorem test_decode_rdW : decodeTableWord 16 0b001111100 = some (.rdW 15#4) := by decide
/-- P4's `wr.w 3, 0xdeadbeef`: descriptor 0x14c, 1 01 0011 00. -/
theorem test_decode_wrW : decodeTableWord 48 0xdeadbeef_014c = some (.wrW 3#4 0xdeadbeef#32) := by decide
/-- L2-K1, K2, K3, K5, K6 and K7. -/
theorem test_decode_illegal_commands :
    [0x00000010#32, 0x00000105#32, 0x00000103#32, 0x00010002#32, 0x0000000f#32, 0x80000004#32].all
      (fun v => decodeCommand v == none) = true := by decide
/-- R89: RD_CMD, WR_STATUS, WR_RESULT, a misaligned offset and the reserved offsets at their ends. -/
theorem test_decode_illegal_descriptors :
    [0x000, 0x104, 0x108, 0x041, 0x143, 0x00C, 0x03C, 0x10C, 0x080, 0x1FC].all
      (fun w => decodeTableWord 16 w == none) = true := by decide

/-! ### The commands -/

/-- R110. -/
theorem test_nop_while_busy : nextOf (exec .nop (st running)) = some (st running) := by decide
/-- R111's example: STATUS 0x0000381C becomes 0. -/
theorem test_clear_after_failed_pack : statusAfter (exec .clear (st { failed with cerr := true })) = some 0#32 := by decide
/-- L2-K18. -/
theorem test_clear_while_busy :
    (nextOf (exec .clear (st { running with cerr := true }))).map (fun t => (t.hce.busy, t.hce.cerr, t.hce.len))
      = some (true, false, 0#6) := by decide
/-- L2-K4. -/
theorem test_append_first_byte :
    (nextOf (exec (.append 0xFF#8) State.reset)).map (fun t => (t.hce.msg[0], t.hce.statusWord))
      = some (0xFF#8, 0x00000100#32) := by decide
/-- L2-P8: the 56th byte is stored and the 57th ignored. -/
theorem test_append_saturates :
    (nextOf (exec (.append 0x78#8) (st { Hce.reset with len := 55#6 }))).map (fun t => (t.hce.msg[55], t.hce.statusWord))
      = some (0x78#8, 0x00003810#32) ∧
    nextOf (exec (.append 0x78#8) (st full)) = some (st full) := by decide
/-- L2-P5. -/
theorem test_pack_golden :
    (nextOf (exec .pack (st (loaded golden)))).map (fun t => (t.hce.w, t.hce.statusWord))
      = some (goldenBlock, 0x00000c00#32) := by decide
/-- L2-P6: 55 bytes of "a". -/
theorem test_pack_longest :
    (nextOf (exec .pack (st (loaded (List.replicate 55 0x61#8))))).map
        (fun t => (t.hce.w[12], t.hce.w[13], t.hce.w[14], t.hce.w[15], t.hce.statusWord))
      = some (0x61616161#32, 0x80616161#32, 0x000001b8#32, 0#32, 0x00003700#32) := by decide
/-- L2-P7 and L2-P9. -/
theorem test_pack_full :
    statusAfter (exec .pack (st full)) = some 0x00003814#32 ∧
    statusAfter (exec .pack (st { full with busy := true })) = some 0x00003819#32 := by decide
/-- R150's example: STATUS 0x00000c01. -/
theorem test_start_accepted :
    (nextOf (exec .start (st (loaded golden)))).map (fun t => (t.hce.work, t.hce.statusWord))
      = some (IV, 0x00000c01#32) := by decide
/-- L2-K15 and L2-K16. -/
theorem test_start_rejected :
    statusAfter (exec .start (st { Hce.reset with busy := true, rnd := 5#7 })) = some 0x00050009#32 ∧
    statusAfter (exec .start (st failed)) = some 0x0000381c#32 := by decide

/-! ### The bus accesses -/

/-- R190's example: 0x00006102 appends 0x61. -/
theorem test_wrCmd_appends :
    (nextOf (exec (.wrCmd 0x00006102#32) State.reset)).map (fun t => (t.hce.msg[0], t.hce.statusWord))
      = some (0x61#8, 0x00000100#32) := by decide
/-- L2-K1 to L2-K3 and L2-K5 to L2-K7. -/
theorem test_wrCmd_illegal :
    [0x00000010#32, 0x00000105#32, 0x00000103#32, 0x00010002#32, 0x0000000f#32, 0x80000004#32].all
      (fun v => statusAfter (exec (.wrCmd v) State.reset) == some 0x00000008#32) = true := by decide
/-- P1's r1: 0x00400c02. -/
theorem test_rdStatus_after_run :
    (nextOf (exec .rdStatus (st { completed with len := 12#6 }))).map (·.reads) = some [0x00400c02#32] := by decide
theorem test_rdResult :
    (nextOf (exec .rdResult (st { completed with result := 0xdb010000#32 }))).map (·.reads) = some [0xdb010000#32] := by decide
/-- L2-K19 and L2-K20. -/
theorem test_rdW_of_golden_block :
    (nextOf (exec (.rdW 14#4) (st running))).map (·.reads) = some [0x00000060#32] ∧
    (nextOf (exec (.rdW 15#4) (st running))).map (·.reads) = some [0x00000000#32] := by decide
/-- L2-K17, and P4's schedule S2. -/
theorem test_wrW :
    nextOf (exec (.wrW 3#4 0xdeadbeef#32) (st running)) = some (st { running with cerr := true }) ∧
    (nextOf (exec (.wrW 3#4 0xdeadbeef#32) (st completed))).map (fun t => (t.hce.w[2], t.hce.w[3], t.hce.w[4]))
      = some (0#32, 0xdeadbeef#32, 0#32) := by decide
/-- L2-K8 to L2-K14. -/
theorem test_access_errors :
    [rd 0x00#8, rd 0x0C#8, wr 0x04#8 0#32, wr 0x08#8 0#32, { rd 0x04#8 with width := .bits 8 }, rd 0x02#8, rd 0x80#8].all
      (fun a => faultOf (performAccess a State.reset) == some (.accessError a.off)) = true := by decide

/-! ### The datapath -/

/-- L2-F1 to L2-F4: F, G, H and I. -/
theorem test_round_functions :
    fn 0 0xFFFF0000#32 0x12345678#32 0x9ABCDEF0#32 = 0x1234def0#32 ∧
    fn 16 0xFFFF0000#32 0x12345678#32 0x9ABCDEF0#32 = 0x9abc0008#32 ∧
    fn 32 0xFFFF0000#32 0x12345678#32 0x9ABCDEF0#32 = 0x77778888#32 ∧
    fn 48 0xFFFF0000#32 0x12345678#32 0x9ABCDEF0#32 = 0xedcb7777#32 := by decide
/-- L2-F9 to L2-F13. -/
theorem test_rotl32 :
    rotl32 0x80000001#32 4 = 0x00000018#32 ∧ rotl32 0x12345678#32 7 = 0x1a2b3c09#32 ∧
    rotl32 0x12345678#32 23 = 0x3c091a2b#32 ∧ rotl32 0xFFFFFFFF#32 13 = 0xffffffff#32 ∧
    rotl32 0x00000001#32 21 = 0x00200000#32 := by decide
/-- R149, at the ends of the four groups. -/
theorem test_round_parameters :
    [(0 : Fin 64), 15, 16, 31, 32, 47, 48, 63].map (fun i => ((g i).val, S i, K i)) =
      [(0, 7, 0xd76aa478#32), (15, 22, 0x49b40821#32), (1, 5, 0xf61e2562#32), (12, 20, 0x8d2a4c8a#32),
        (5, 4, 0xfffa3942#32), (2, 23, 0xc4ac5665#32), (0, 6, 0xf4292244#32), (9, 21, 0xeb86d391#32)] := by decide
/-- R160's example and P1: round 0 of "abcdef609043"; STATUS then reads 0x00010c01. -/
theorem test_round_first :
    (nextOf (engineRound (st running))).map (fun t => (t.hce.work, t.hce.statusWord)) =
      some ({ a := 0x10325476#32, b := 0xd6d117a6#32, c := 0xefcdab89#32, d := 0x98badcfe#32 }, 0x00010c01#32) := by decide
/-- L2-T, round 63, and P1's end state. -/
theorem test_round_last :
    (nextOf (engineRound (st lastRound))).map (fun t => (t.hce.work, t.hce.result, t.hce.statusWord)) =
      some ({ a := 0x73bbdcff#32, b := 0xd8d7f836#32, c := 0xcb95503c#32, d := 0xfe7e72b3#32 }, 0xdb010000#32,
        0x00400c02#32) := by decide
/-- L2-C1 and L2-C6. -/
theorem test_compress :
    (packBlock []).map compress = some 0xd98c1dd4#32 ∧
    (packBlock (List.replicate 55 0x61#8)).map compress = some 0xb67217ef#32 := by decide
/-- L1-3's counter, in ASCII. -/
theorem test_decimalText : decimalText 609043 = [0x36#8, 0x30#8, 0x39#8, 0x30#8, 0x34#8, 0x33#8] ∧ decimalText 10 = [0x31#8, 0x30#8] := by
  decide

/-! ### Witnesses: for each statement with hypotheses, what meets them -/

theorem witness_EncodedInstructionDecodesToItself : (Instr.append 0x61#8).wellFormed = true := by decide

theorem witness_DecodedWordIsTheEncodingOfItsInstruction :
    decode (.cmd 0x00006102#32) = .ok (.append 0x61#8) ∧ decode (.bus 0x14C#9 0xdeadbeef#32) = .ok (.wrW 3#4 0xdeadbeef#32) ∧
    decode (.bus 0x07C#9 0#32) = .ok (.rdW 15#4) := by decide

/-- One word for each clause, at its boundary: OP = 5, RSV0, RSV1, and DATA with OP = 3. -/
theorem witness_IllegalWordSetsCerrAndNothingElse :
    decodeCommand 0x00000005#32 = none ∧ decodeCommand 0x00000010#32 = none ∧ decodeCommand 0x00010000#32 = none ∧
    decodeCommand 0x00000103#32 = none := by decide

/-- One access for each clause, at the ends of its range. -/
theorem witness_AccessErrorForExactlyTheListedAccesses :
    [{ rd 0x40#8 with width := .bits 16 }, rd 0x41#8, rd 0x00#8, wr 0x04#8 0#32, wr 0x08#8 0#32, rd 0x0C#8, rd 0x3F#8, rd 0x80#8,
      rd 0xFF#8].all (fun a => faultOf (performAccess a State.reset) == some (.accessError a.off)) = true := by decide

/-- The clauses for W at k = 0 and 15, and the last clause beside them. -/
theorem witness_RegisterMapOfTheWindow :
    (0x40#8).toNat = 0x40 + 4 * (0#4).toNat ∧ (0x7C#8).toNat = 0x40 + 4 * (15#4).toNat ∧
    (∀ k : BitVec 4, (0x3C#8).toNat ≠ 0x40 + 4 * k.toNat) ∧ (∀ k : BitVec 4, (0x80#8).toNat ≠ 0x40 + 4 * k.toNat) ∧
    (∀ k : BitVec 4, (0x41#8).toNat ≠ 0x40 + 4 * k.toNat) := by decide

theorem witness_NopChangesNothingInAnyState : (0x00000010#32).extractLsb' 0 4 = 0#4 ∧ 0x00000010#32 ≠ 0#32 := by decide

theorem witness_ClearEmptiesTheMessageAndTheErrorFlags :
    (State.reset.hce.len = 0#6 ∧ State.reset.hce.perr = false ∧ State.reset.hce.cerr = false) ∧
    ({ failed with cerr := true } : Hce).statusWord = 0x0000381C#32 := by decide

theorem witness_AppendStoresOneByteUntilTheBufferIsFull :
    (Hce.reset.len.toNat < 56 ∧ Hce.reset.statusWord = 0x00000000#32) ∧
    ({ Hce.reset with len := 55#6 } : Hce).len.toNat < 56 ∧ full.len = 56#6 := by decide

/-- A host about to load "abc", with the turns for it. -/
def loading : State :=
  { hce := Hce.reset, pending := assemble (loadMessage abc), schedule := List.replicate 4 .host, reads := [] }
theorem witness_MessageIsLoadedByClearAndAppends :
    loading.pending = assemble (loadMessage abc) ++ [] ∧ loading.schedule = List.replicate (abc.length + 1) .host ++ [] ∧
    abc.length ≤ 55 := by decide

theorem witness_PackWritesThePaddedBlock :
    running.busy = true ∧ (full.busy = false ∧ full.len = 56#6) ∧ (Hce.reset.busy = false ∧ Hce.reset.len.toNat < 56) ∧
    (({ Hce.reset with len := 55#6 } : Hce).busy = false ∧ ({ Hce.reset with len := 55#6 } : Hce).len.toNat < 56) := by decide

theorem witness_PackedBlockHasMessageTerminatorAndLength :
    (st (loaded golden)).hce.busy = false ∧ (st (loaded golden)).hce.len.toNat < 56 := by decide

theorem witness_StartBeginsARunUnlessBusyOrPackFailed :
    running.busy = true ∧ failed.perr = true ∧ (Hce.reset.busy = false ∧ Hce.reset.perr = false) := by decide

theorem witness_RoundRotatesAndAdds :
    (running.busy = true ∧ running.rnd.toNat = (0 : Fin 64).val ∧ (0 : Fin 64).val ≠ 63) ∧
    (({ running with rnd := 62#7 } : Hce).rnd.toNat = (62 : Fin 64).val ∧ (62 : Fin 64).val ≠ 63) := by decide

theorem witness_LastRoundCompletesTheRun : lastRound.busy = true ∧ lastRound.rnd = 63#7 := by decide

theorem witness_RunTakesExactlySixtyFourEngineSteps :
    State.reset.hce.busy = false ∧ State.reset.hce.perr = false ∧ ∃ s, exec .start State.reset = .next s :=
  ⟨rfl, rfl, next_exists (by decide)⟩

/-- A host that reads RESULT before the last of 64 ENGINE turns. -/
def interleaved : State :=
  { hce := Hce.reset, pending := [.access (rd 0x08#8)], reads := []
    schedule := (List.replicate 63 .engine ++ [.host]) ++ .engine :: [] }
theorem witness_RunComputesTheReferenceFunctionUnderAnyInterleaving :
    interleaved.hce.busy = false ∧ interleaved.hce.perr = false ∧
    ∃ s t, exec .start interleaved = .next s ∧ s.schedule = (List.replicate 63 Turn.engine ++ [Turn.host]) ++ Turn.engine :: [] ∧
      Turn.reset ∉ List.replicate 63 Turn.engine ++ [Turn.host] ∧
      (List.replicate 63 Turn.engine ++ [Turn.host]).count Turn.engine = 63 ∧
      Host.Core.run core ((List.replicate 63 Turn.engine ++ [Turn.host]).length + 1) s = .next t := by
  have h : (nextOf (Host.Core.run core 65 (interleaved.withHce interleaved.hce.beginRun))).isSome = true := by decide
  obtain ⟨t, ht⟩ := next_exists h
  exact ⟨rfl, rfl, interleaved.withHce interleaved.hce.beginRun, t, rfl, rfl, by decide, by decide, ht⟩

theorem witness_ScheduleReadsEveryBlockWordOnceInEachGroup : ∃ t, engineRound (st running) = .next t := next_exists (by decide)

theorem witness_CommandWritePerformsItsCommand :
    (Width.bits 8 ≠ .bits 32 ∧ Width.burst ≠ .bits 32) ∧
    0x0000FF02#32 &&& 0xFFFF00FF#32 = 0x00000002#32 ∧
    (0x00000005#32 ≠ 0x00000000#32 ∧ 0x00000005#32 ≠ 0x00000001#32 ∧ 0x00000005#32 &&& 0xFFFF00FF#32 ≠ 0x00000002#32 ∧
      0x00000005#32 ≠ 0x00000003#32 ∧ 0x00000005#32 ≠ 0x00000004#32) := by decide

theorem witness_BlockWriteIsPerformedOnlyWhileIdle : running.busy = true ∧ completed.busy = false := by decide

theorem witness_ReadsAreFreeOfEffectsAndBlockWritesIdempotent :
    (∃ t u, exec (.rdW 15#4) (st running) = .next t ∧ exec (.rdW 15#4) t = .next u) ∧
    (∃ t, exec (.wrW 15#4 1#32) (st completed) = .next t) ∧
    (({ Hce.reset with len := 54#6 } : Hce).len.toNat < 55 ∧
      ∃ t u, exec (.append 1#8) (st { Hce.reset with len := 54#6 }) = .next t ∧ exec (.append 1#8) t = .next u) ∧
    (completed.Invariant ∧ completed.done = true ∧ completed.perr = false ∧ ∃ t, exec .start (st completed) = .next t) :=
  ⟨⟨_, _, rfl, rfl⟩, next_exists (by decide), ⟨by decide, _, _, rfl, rfl⟩, by decide, rfl, rfl, next_exists (by decide)⟩

theorem witness_WindowBytesAreLittleEndian : running.windowByte (BitVec.ofNat 8 (0x40 + 4 * 15 + 3)) = some 0x00#8 := by decide

theorem witness_CerrIsSetByExactlyTheListedCauses :
    CerrCause.holds (.wrCmd 0x00000105#32) Hce.reset .illegal ∧ CerrCause.holds .pack running .packBusy ∧
    CerrCause.holds (.wrCmd 0x00000004#32) running .startBusy ∧ CerrCause.holds .start failed .startPerr ∧
    CerrCause.holds (.wrW 3#4 0#32) running .wBusy ∧
    (∃ t, exec .pack (st running) = .next t ∧ running.cerr = false ∧ t.hce.cerr = true) ∧
    ∃ t, engineRound (st running) = .next t :=
  ⟨⟨_, rfl, by decide⟩, ⟨rfl, rfl⟩, ⟨by decide, rfl⟩, ⟨rfl, rfl⟩, ⟨⟨_, _, rfl⟩, rfl⟩, ⟨_, rfl, rfl, rfl⟩, next_exists (by decide)⟩

theorem witness_PerrIsSetOnlyByPackOfAFullBuffer :
    full.I5 ∧ full.perr = false ∧ (∃ t, exec .pack (st full) = .next t ∧ t.hce.perr = true) ∧
    (∃ t, engineRound (st running) = .next t) ∧ failed.perr = true :=
  ⟨by decide, rfl, ⟨_, rfl, rfl⟩, next_exists (by decide), rfl⟩

theorem witness_EachAccessSetsAtMostOneFlag :
    performAccess (rd 0x00#8) State.reset = .fault (.accessError (rd 0x00#8).off) ∧ decodeCommand 0x00000010#32 = none ∧
    (({ full with busy := true } : Hce).busy = true ∧ ({ full with busy := true } : Hce).len = 56#6) ∧ failed.perr = true ∧
    ∃ t, performAccess (wr 0x00#8 0x00000003#32) (st full) = .next t :=
  ⟨rfl, by decide, by decide, rfl, next_exists (by decide)⟩

/-- A host about to clear the error flags. -/
def clearing : State := { hce := failed, pending := [.access (wr 0x00#8 0x00000001#32)], schedule := [.host], reads := [] }
theorem witness_OnlyClearAndResetClearTheErrorFlags :
    (∃ t, step clearing = .next t ∧ clearing.hce.perr = true ∧ t.hce.perr = false) ∧
    ∃ t, step { clearing with schedule := [.reset] } = .next t ∧ t.hce.perr = false :=
  ⟨⟨_, rfl, rfl, rfl⟩, _, rfl, rfl⟩

theorem witness_StepRunsTheHostsNextAccess :
    decodeAccess (wr 0x00#8 0x00000001#32) = .ok (.wrCmd 0x00000001#32) ∧
    clearing.pending = .access (wr 0x00#8 0x00000001#32) :: [] ∧ clearing.schedule = .host :: [] ∧
    clearing.hce.busy = false ∧ ({ clearing with schedule := [] } : State).schedule = [] := by decide

theorem witness_FetchedTableWordRunsItsInstruction : decodeTableWord 32 0x00006102 = some (.append 0x61#8) := by decide
/-- What the host of the row asks: the word runs as the first step after reset. -/
theorem test_fetched_word_runs_from_reset :
    (nextOf (step (State.reset.withFetchWord 32 0x00006102))).map (·.hce.statusWord) = some 0x00000100#32 ∧
    (nextOf (step (State.reset.withFetchWord 16 0x078))).map (·.reads) = some [0x00000000#32] := by decide

/-- A host polling while the ENGINE runs. -/
def polling (h : Hce) (turns : List Turn) : State := { hce := h, pending := [.poll, .access (rd 0x08#8)], schedule := turns, reads := [] }
theorem witness_AgentsTakeTheirTurns :
    (polling running [.engine]).schedule = .engine :: [] ∧ (polling Hce.reset [.engine]).hce.busy = false ∧
    ({ st Hce.reset with schedule := [.host] } : State).pending = [] ∧
    (polling running [.host]).pending = .poll :: [.access (rd 0x08#8)] ∧
    (nextOf (step (polling running [.host]))).map (·.pending.length) = some 2 ∧
    (nextOf (step (polling completed [.host]))).map (·.pending.length) = some 1 := by decide

theorem witness_ResetInAnyStateGivesTheResetValues : (polling running [.reset, .host]).schedule = .reset :: [.host] := by decide

theorem witness_RunEndsOnlyByItsLastRoundOrReset :
    ∃ t, step (polling lastRound [.engine]) = .next t ∧ lastRound.busy = true ∧ t.hce.busy = false := by
  have h : (nextOf (step (polling lastRound [.engine]))).map (·.hce.busy) = some false := by decide
  obtain ⟨t, ht⟩ := next_exists (r := step (polling lastRound [.engine])) (by decide)
  rw [ht] at h
  exact ⟨t, ht, rfl, Option.some.inj h⟩

theorem witness_ResultChangesOnlyAtCompletionOrReset :
    ∃ t, step (polling lastRound [.engine]) = .next t ∧ t.hce.result ≠ lastRound.result := by
  have h : (nextOf (step (polling lastRound [.engine]))).map (·.hce.result) = some 0xdb010000#32 := by decide
  obtain ⟨t, ht⟩ := next_exists (r := step (polling lastRound [.engine])) (by decide)
  rw [ht] at h
  have e : t.hce.result = 0xdb010000#32 := Option.some.inj h
  exact ⟨t, ht, by rw [e]; decide⟩

theorem witness_HostStepsLeaveARunAlone :
    (∃ t, hostTurn { st running with pending := [.access (wr 0x00#8 0x00000001#32)] } = .next t) ∧ running.busy = true :=
  ⟨next_exists (by decide), rfl⟩

theorem witness_EveryStepKeepsTheInvariant : running.Invariant ∧ ∃ t, step (polling running [.engine]) = .next t :=
  ⟨by decide, next_exists (by decide)⟩

theorem witness_EveryStepKeepsARunOnTrack : running.OnTrack ∧ ∃ t, step (polling running [.engine]) = .next t :=
  ⟨fun _ => rfl, next_exists (by decide)⟩

/-- Another HCE with other hidden values: A to D while idle, and the message bytes beyond LEN. -/
def hidden : Hce := { loaded abc with work := IV, msg := (loaded abc).msg.set 3 0xFF#8 }
theorem witness_UnobservableStateNeverShows : (st (loaded abc)).sameVisible (st hidden) ∧ st (loaded abc) ≠ st hidden := by
  refine ⟨⟨⟨rfl, rfl, rfl, rfl, rfl, rfl, rfl, rfl, by decide, ?_⟩, rfl, rfl, rfl⟩, by decide⟩
  intro h; exact absurd h (by decide)

theorem witness_WellFormedAccessesNeverFault :
    (polling running [.host]).hce.Invariant ∧ (polling running [.host]).accessesWellFormed :=
  ⟨by decide, by decide⟩

/-- A host that asks for compress(pack("abc")) while the ENGINE also has turns. -/
def asking : State :=
  { hce := Hce.reset, pending := assemble (loadMessage abc ++ runBlock), schedule := [.engine, .host], reads := [] }
theorem witness_HostReadsCompressOfPackUnderEverySchedule :
    asking.hce.busy = false ∧ asking.resetFree ∧ abc.length ≤ 55 ∧ asking.pending = assemble (loadMessage abc ++ runBlock) := by
  decide

theorem witness_DecimalTextIsTheNumber : 1 ≤ 609043 ∧ decimalText 7 = [0x37#8] := by decide

/-- L1-3 with the seed "abcdef60904": the counter 3 is the first that passes. -/
def seed1 : Seed := { bytes := golden.take 11, short := by decide }
/-- L2-S1 with the seed "abcdef674283": the counter 9 is the first that passes. -/
def seed2 : Seed := { bytes := golden.take 6 ++ [0x36#8, 0x37#8, 0x34#8, 0x32#8, 0x38#8, 0x33#8], short := by decide }
/-- A seed of 20 bytes, the longest. -/
def seed20 : Seed := { bytes := List.replicate 20 0x78#8, short := by decide }

theorem witness_SearchReturnsTheSmallestPassingCounter : search 8 seed1 Config.mask1 = .ok 3 := by decide

theorem witness_SearchFailsOnlyByOverflow : 1 ≤ 1 ∧ search 1 seed1 Config.mask1 = .error .counterOverflow := by decide

/-- R236 and L1-9: with a seed of 20 bytes the counter 10^35 overflows, and no smaller one does. -/
theorem witness_MessageOverflowNeedsMoreThan116CounterBits :
    56 ≤ (seed20.bytes ++ decimalText (10 ^ 35)).length ∧ (candidate seed20 (10 ^ 35 - 1)).length = 55 ∧
    searchLoop seed20 Config.mask1 0 (10 ^ 35) = .error .messageOverflow ∧ 116 ≤ 116 := by decide

theorem witness_StricterMaskNeverFindsEarlier : search 8 seed2 0x00FFFFFF#32 = .ok 9 := by decide

/-- L2-S5's seed of 21 bytes, and one of 20. -/
theorem witness_SeedIsCheckedAtConstruction : 20 < (List.replicate 21 0x78#8).length ∧ (List.replicate 20 0x78#8).length ≤ 20 := by
  decide

/-- L2-S5; the last clause with variants 0 and 3. -/
theorem witness_SolveChecksTheSeedAndUsesTheVariantsMask :
    20 < (List.replicate 21 0x78#8).length ∧ Seed.construct seed20.bytes = .ok seed20 ∧
    search 8 seed1 Config.mask1 = .ok 3 ∧ search 8 seed2 0x00FFFFFF#32 = .ok 9 ∧
    search 1 seed1 Config.mask1 = .error .counterOverflow ∧ search 1 seed1 Config.mask2 = .error .counterOverflow ∧
    (0 ≠ 1 ∧ 0 ≠ 2) ∧ (3 ≠ 1 ∧ 3 ≠ 2) :=
  ⟨by decide, rfl, witness_SearchReturnsTheSmallestPassingCounter, witness_StricterMaskNeverFindsEarlier, by decide, by decide,
    by decide, by decide⟩

/-- The counters 1 to 3 in two ranges of different sizes, and an empty one at the end. -/
def ranges : List CounterRange := [{ first := 1, size := 2 }, { first := 3, size := 1 }, { first := 4, size := 0 }]
theorem witness_SplitSearchFindsTheSameCounter : 1 ≤ 2 ∧ 1 ≤ 3 ∧ partitions 3 1 ranges = true ∧ partitions (2 ^ 2 - 1) 1 ranges = true := by
  decide
/-- L1-3: the second worker's counter; and R229 where no worker succeeds. -/
theorem test_split_search :
    splitSearch seed1 Config.mask1 ranges = .ok 3 ∧
    splitSearch seed1 Config.mask1 [{ first := 1, size := 1 }, { first := 2, size := 0 }] = .error .counterOverflow := by decide
/-- R234: of two successes the smaller counter; the clauses with an overflow are log entry 24. -/
theorem test_reduction :
    reduceAnswers [.exhausted, .found 9, .found 3, .overflow] = .ok 3 ∧
    reduceAnswers [.exhausted, .overflow] = .error .messageOverflow := by decide
theorem test_not_a_partition :
    partitions 3 1 [{ first := 1, size := 2 }] = false ∧ partitions 3 1 [{ first := 1, size := 2 }, { first := 2, size := 2 }] = false ∧
    partitions 3 1 [{ first := 3, size := 1 }, { first := 1, size := 2 }] = false := by decide

theorem witness_RangesPartitionTheCounters : partitions 3 1 ranges = true := by decide

theorem witness_SearchOnTheHceIsTheReferenceSearch :
    State.reset.hce.busy = false ∧ State.reset.pending = [] ∧ State.reset.schedule = [] := by decide

/-- Two engines. -/
def params : Config.Params :=
  { hceBase := [0x1000, 0x1100], cyclesPerRound := 1, nEngines := 2, counterBits := 32, hostsPerEngine := 1, orderedDelivery := true }
def platform : Platform := Platform.reset params

theorem witness_SplitSearchOnThePlatformIsTheReferenceSearch :
    (∀ e ∈ platform.engines, e.machine.hce.busy = false ∧ e.machine.pending = [] ∧ e.machine.schedule = []) ∧
    ∃ sp, SplitSearch.start 2 (ranges.take 2) platform = .ok sp := ⟨by decide, _, rfl⟩
/-- R64: three workers need three engines; R234: the ranges must cover the counters; the refusals are log entry 24. -/
theorem test_split_refusals :
    (match SplitSearch.start 2 ranges platform with | .error e => some e | .ok _ => none) = some .tooFewEngines ∧
    (match SplitSearch.start 3 (ranges.take 2) platform with | .error e => some e | .ok _ => none) = some .notAPartition := by decide

theorem witness_EnginesOfAPlatformAreIndependent : ∃ pl, platform.stepEngine 1 = .next pl := ⟨_, rfl⟩

theorem witness_AddressSelectsAtMostOneEngine :
    platform.wf params = true ∧ (0x10FF < 0x1100 ∨ 0x1100 + 256 ≤ 0x10FF) ∧
    (windowOffset 0x1000 0x10FF).isSome = true ∧ (windowOffset 0x1100 0x10FF).isSome = false ∧
    (∃ e : PlatformEngine, platform.engines[0]? = some e ∧ (windowOffset e.base 0x10FF).isSome = true) ∧
    (∀ e ∈ platform.engines, windowOffset e.base 0x1200 = none) :=
  ⟨by decide, by decide, by decide, by decide, ⟨_, rfl, by decide⟩, by decide⟩

/-- R62 and R67: a platform with two hosts on one engine, or one that reorders, is refused. -/
theorem test_platform_refusals :
    (match Platform.boot { params with hostsPerEngine := 2 } with | .error e => some e | .ok _ => none) = some .severalHosts ∧
    (match Platform.boot { params with orderedDelivery := false } with | .error e => some e | .ok _ => none)
      = some .unorderedDelivery ∧
    (match Platform.boot params with | .error e => some e | .ok _ => none) = none := by decide

end Sys2Proof.Tests
end

section
/-!
PROOFS of 00_scope.md: what a turn of each agent is, case by case, and the two statements about one step (O32, O34).
-/

namespace Sys2Proof.Machine

/-- R29: bit 0 of STATUS is BUSY. -/
theorem Hce.statusWord_bit0 (h : Hce) : h.statusWord.getLsbD 0 = h.busy := h.statusWord_getLsbD 0

/-! ### The ENGINE's turn, and whose turn it is by default -/

theorem engineRound_idle {s : State} (idle : s.hce.busy = false) : engineRound s = .next s := by
  unfold engineRound; rw [if_neg (by simp [idle])]

theorem defaultTurn_idle {s : State} (idle : s.hce.busy = false) : defaultTurn s = .host := by
  unfold defaultTurn; rw [if_neg (by simp [idle])]

/-! ### The HOST's turn, by its next action -/

theorem hostTurn_done {s : State} (hp : s.pending = []) : hostTurn s = .next s := by
  unfold hostTurn; rw [hp]

theorem performAccess_ok {a : Access} {i : Instr} (hd : decodeAccess a = .ok i) (s : State) : performAccess a s = exec i s := by
  unfold performAccess; rw [hd]

theorem hostTurn_access {s : State} {a : Access} {i : Instr} {rest : List HostAction} (hp : s.pending = .access a :: rest)
    (hd : decodeAccess a = .ok i) : hostTurn s = exec i { s with pending := rest } := by
  unfold hostTurn; rw [hp]; exact performAccess_ok hd _

theorem hostTurn_pollStatus {s : State} {rest : List HostAction} (hp : s.pending = .poll :: rest) :
    hostTurn s = pollStatus rest s := by
  unfold hostTurn; rw [hp]

/-- A poll that reads BUSY = 1 stays the host's next action (R92). -/
theorem hostTurn_poll_busy {s : State} {rest : List HostAction} (hp : s.pending = .poll :: rest)
    (read : s.hce.statusWord.getLsbD 0 = true) :
    hostTurn s = .next { s with reads := s.hce.statusWord :: s.reads } :=
  (hostTurn_pollStatus hp).trans (if_pos read)

/-- R92: what a poll reads, and that it stays the host's next action iff the word read has BUSY = 1. -/
theorem hostTurn_poll {s : State} {rest : List HostAction} (hp : s.pending = .poll :: rest) :
    hostTurn s = .next { s with
      reads := s.hce.statusWord :: s.reads, pending := if s.hce.busy = true then s.pending else rest } := by
  have bit := s.hce.statusWord_bit0
  cases busy : s.hce.busy with
  | true => exact hostTurn_poll_busy hp (bit.trans busy)
  | false => exact hostTurn_poll_idle hp (bit.trans busy)

/-! ### The statements -/

/-- Settles O32: a scheduled HOST turn, and by default the turn of an idle HCE, is the HOST's next access. -/
theorem stepRunsTheHostsNextAccess : Obligations.StepRunsTheHostsNextAccess := by
  intro s a i rest turns hp hd _
  constructor
  · intro scheduled
    exact (step_scheduled scheduled).trans (hostTurn_access hp hd)
  · intro used idle
    rw [step_default used, defaultTurn_idle idle]
    exact hostTurn_access hp hd

/-- Settles O34: the turn is taken off the schedule, and each agent's turn is what the lemmas above say. -/
theorem agentsTakeTheirTurns : Obligations.AgentsTakeTheirTurns := by
  intro s turns
  refine ⟨step_scheduled, fun scheduled idle => ?_, fun scheduled hp => ?_, fun rest scheduled hp => ?_⟩
  · exact (step_scheduled scheduled).trans (engineRound_idle idle)
  · exact (step_scheduled scheduled).trans (hostTurn_done hp)
  · exact (step_scheduled scheduled).trans (hostTurn_poll hp)

end Sys2Proof.Machine
end

section
/-!
PROOFS of 10_state.md: what a step can do to the HCE, said once, and from it the invariants of R33 (O40, O41), the frame of a
run (O38, O39), what is unobservable (O43), the layout of STATUS (O23), the reset values (O36) and the independence of the
engines of a platform (O57).
-/

namespace Sys2Proof.Machine

/-! ### What a step can do to the HCE -/

/-- A HOST turn makes one of the updates of an instruction, if any. -/
theorem hostTurn_update {s t : State} (h : hostTurn s = .next t) : HceUpdate s.hce t.hce := by
  obtain ⟨-, rfl⟩ | ⟨a, rest, i, -, -, hx⟩ | ⟨rest, -, hce, -⟩ := hostTurn_cases h
  · exact .same
  · obtain ⟨-, -, update⟩ := exec_update hx
    exact update
  · rw [hce]; exact .same

/-- Everything a turn can do to the HCE: reset, an update of the HOST's (or none), or the ENGINE's next round. -/
theorem takeTurn_hce_cases {u : Turn} {s t : State} (h : takeTurn u s = .next t) :
    (u = .reset ∧ t.hce = Hce.reset) ∨
    HceUpdate s.hce t.hce ∨
    (u = .engine ∧ s.hce.busy = true ∧ ∃ i : Fin 64, s.hce.rnd.toNat = i.val ∧ t.hce = s.hce.roundStep i) := by
  cases u with
  | host => exact .inr (.inl (hostTurn_update h))
  | engine =>
    obtain ⟨-, rfl⟩ | ⟨busy, lt, rfl⟩ := engineRound_cases h
    · exact .inr (.inl .same)
    · exact .inr (.inr ⟨rfl, busy, ⟨_, lt⟩, rfl, rfl⟩)
  | reset =>
    obtain rfl : s.resetHce = t := by simpa [takeTurn] using h
    exact .inl ⟨rfl, rfl⟩

theorem defaultTurn_ne_reset (s : State) : defaultTurn s ≠ .reset := by
  unfold defaultTurn
  split <;> simp

/-- Everything a step can do to the HCE. Only the schedule names a reset. -/
theorem step_hce_cases {s t : State} (h : step s = .next t) :
    (s.schedule.head? = some .reset ∧ t.hce = Hce.reset) ∨
    HceUpdate s.hce t.hce ∨
    ((s.schedule.head? = some .engine ∨ s.schedule = []) ∧ s.hce.busy = true ∧
      ∃ i : Fin 64, s.hce.rnd.toNat = i.val ∧ t.hce = s.hce.roundStep i) := by
  obtain ⟨u, rest, scheduled, hu⟩ | ⟨used, hu⟩ := step_turn s <;> rw [hu] at h
  · have first : s.schedule.head? = some u := by rw [scheduled]; rfl
    obtain ⟨rfl, reset⟩ | update | ⟨rfl, round⟩ := takeTurn_hce_cases h
    · exact .inl ⟨first, reset⟩
    · exact .inr (.inl update)
    · exact .inr (.inr ⟨.inl first, round⟩)
  · obtain ⟨reset, -⟩ | update | ⟨-, round⟩ := takeTurn_hce_cases h
    · exact absurd reset (defaultTurn_ne_reset s)
    · exact .inr (.inl update)
    · exact .inr (.inr ⟨.inr used, round⟩)

/-! ### The frame of a run -/

theorem HceUpdate.keeps_result {h h' : Hce} (u : HceUpdate h h') : h'.result = h.result := by
  cases u <;> simp

/-- R22, R162 and R292: an update made while BUSY = 1 leaves what the run works on. -/
theorem HceUpdate.keeps_run {h h' : Hce} (u : HceUpdate h h') (busy : h.busy = true) :
    h'.w = h.w ∧ h'.work = h.work ∧ h'.rnd = h.rnd ∧ h'.result = h.result ∧ h'.busy = true ∧ h'.done = h.done := by
  have not_idle : ¬ h.busy = false := by simp [busy]
  cases u with
  | same | cerr | clear | append => simp [busy]
  | pack idle | packFails idle | start idle | writeW idle => exact absurd idle not_idle

/-- Settles O39: a HOST turn makes one of the updates, and none that is made while BUSY = 1 touches the run. -/
theorem hostStepsLeaveARunAlone : Obligations.HostStepsLeaveARunAlone := by
  intro s t h busy
  exact (hostTurn_update h).keeps_run busy

/-- Settles O38: no update of the HOST's writes RESULT, and of the ENGINE's rounds only the last one does. -/
theorem resultChangesOnlyAtCompletionOrReset : Obligations.ResultChangesOnlyAtCompletionOrReset := by
  intro s t h changed
  obtain ⟨reset, -⟩ | update | ⟨-, busy, i, rnd, round⟩ := step_hce_cases h
  · exact .inl reset
  · exact absurd update.keeps_result changed
  · right
    rw [round] at changed ⊢
    have last : i.val = 63 := by
      by_contra ne
      exact changed (by rw [Hce.roundStep_result, if_neg ne])
    refine ⟨busy, BitVec.eq_of_toNat_eq (rnd.trans last), ?_, ?_⟩
    · simp [Hce.roundStep_busy, last]
    · simp [Hce.roundStep_done, last]

/-! ### The five invariants of R33 -/

theorem Hce.reset_invariant : Hce.reset.Invariant := by decide

theorem Hce.reset_onTrack : Hce.reset.OnTrack := fun busy => absurd busy (by decide)

/-- R33, I4 with R112: PERR = 1 means a full buffer, in which APPEND stores nothing. -/
theorem Hce.appendByte_keeps_invariant {h : Hce} (b : Byte) (inv : h.Invariant) : (h.appendByte b).Invariant := by
  by_cases lt : h.len.toNat < 56
  · obtain ⟨i1, i2, i3, i4, -, rnd⟩ := inv
    have len : (h.len + 1#6).toNat ≤ 56 := by rw [BitVec.toNat_add, BitVec.toNat_ofNat]; omega
    have no_perr : ¬ h.perr = true := fun perr => by rw [i4 perr] at lt; simp at lt
    rw [Hce.appendByte_fits b lt]
    exact ⟨i1, i2, i3, fun perr => absurd perr no_perr, len, rnd⟩
  · rwa [Hce.appendByte_full b lt]

theorem HceUpdate.keeps_invariant {h h' : Hce} (u : HceUpdate h h') (inv : h.Invariant) : h'.Invariant := by
  have all := inv
  obtain ⟨i1, i2, i3, i4, len, rnd⟩ := inv
  cases u with
  | same | cerr | pack | writeW => exact all
  | clear => exact ⟨i1, i2, i3, by simp, by simp, rnd⟩
  | append b => exact Hce.appendByte_keeps_invariant b all
  | packFails idle full =>
    have len56 : h.len = 56#6 := BitVec.eq_of_toNat_eq (Nat.le_antisymm len (Nat.not_lt.mp full))
    exact ⟨i1, i2, i3, fun _ => len56, len, rnd⟩
  | start => exact ⟨by simp, by simp, by simp, i4, len, by simp⟩

/-- A round counts RND up and leaves BUSY and DONE before round 63, and round 63 completes the run as I2 says. -/
theorem Hce.roundStep_keeps_invariant {h : Hce} {i : Fin 64} (busy : h.busy = true) (inv : h.Invariant) :
    (h.roundStep i).Invariant := by
  obtain ⟨-, i2, -, i4, len, -⟩ := inv
  have rnd : (h.roundStep i).rnd.toNat = i.val + 1 := by
    rw [Hce.roundStep_rnd, BitVec.toNat_ofNat]
    omega
  have not_done : h.done = false := by
    by_contra done
    obtain ⟨idle, -⟩ := i2 (by simpa using done)
    simp [busy] at idle
  refine ⟨fun running => ?_, fun done => ?_, fun idle not_done' => ?_, fun perr => ?_, by simpa using len, by omega⟩
  · have before : i.val ≠ 63 := by simpa [Hce.roundStep_busy, busy] using running
    omega
  · have last : i.val = 63 := by simpa [Hce.roundStep_done, not_done] using done
    exact ⟨by simp [Hce.roundStep_busy, last], by simp [last], by simp [Hce.roundStep_result, last]⟩
  · have last : i.val = 63 := by simpa [Hce.roundStep_busy, busy] using idle
    simp [Hce.roundStep_done, last] at not_done'
  · simpa using i4 (by simpa using perr)

/-- Settles O41: reset has the invariants, and each update and each round keeps them. -/
theorem everyStepKeepsTheInvariant : Obligations.EveryStepKeepsTheInvariant := by
  intro s t inv h
  obtain ⟨-, reset⟩ | update | ⟨-, busy, i, -, round⟩ := step_hce_cases h
  · rw [reset]; exact Hce.reset_invariant
  · exact update.keeps_invariant inv
  · rw [round]; exact Hce.roundStep_keeps_invariant busy inv

/-- Settles O40: the two halves are facts about `Hce.reset`, which `State.reset` holds. -/
theorem invariantHoldsAtReset : Obligations.InvariantHoldsAtReset :=
  ⟨Hce.reset_invariant, Hce.reset_onTrack⟩

/-! ### What is unobservable: each operation of the HCE keeps `sameVisible` -/

theorem Hce.sameVisible_refl (h : Hce) : h.sameVisible h :=
  ⟨rfl, rfl, rfl, rfl, rfl, rfl, rfl, rfl, rfl, fun _ => rfl⟩

theorem Hce.sameVisible_busy {h h' : Hce} (e : h.sameVisible h') : h.busy = h'.busy := by
  obtain ⟨-, -, -, -, busy, -⟩ := e
  exact busy

theorem Hce.sameVisible_setCerr {h h' : Hce} (e : h.sameVisible h') : h.setCerr.sameVisible h'.setCerr := by
  obtain ⟨w, len, rnd, result, busy, done, perr, -, message, work⟩ := e
  exact ⟨w, len, rnd, result, busy, done, perr, rfl, message, work⟩

theorem Hce.sameVisible_setPerr {h h' : Hce} (e : h.sameVisible h') : h.setPerr.sameVisible h'.setPerr := by
  obtain ⟨w, len, rnd, result, busy, done, -, cerr, message, work⟩ := e
  exact ⟨w, len, rnd, result, busy, done, rfl, cerr, message, work⟩

/-- After CLEAR the message is empty, so no byte of MSG is visible. -/
theorem Hce.sameVisible_clearMessage {h h' : Hce} (e : h.sameVisible h') :
    h.clearMessage.sameVisible h'.clearMessage := by
  obtain ⟨w, -, rnd, result, busy, done, -, -, -, work⟩ := e
  exact ⟨w, rfl, rnd, result, busy, done, rfl, rfl, by simp, work⟩

/-- START writes IV to A to D, so what they held before does not become visible. -/
theorem Hce.sameVisible_beginRun {h h' : Hce} (e : h.sameVisible h') : h.beginRun.sameVisible h'.beginRun := by
  obtain ⟨w, len, -, result, -, -, perr, cerr, message, -⟩ := e
  exact ⟨w, len, rfl, result, rfl, rfl, perr, cerr, message, fun _ => rfl⟩

/-- A round of a run reads A to D, which are visible then. -/
theorem Hce.sameVisible_roundStep {h h' : Hce} (e : h.sameVisible h') (running : h.busy = true) (i : Fin 64) :
    (h.roundStep i).sameVisible (h'.roundStep i) := by
  obtain ⟨w, len, -, result, busy, done, perr, cerr, message, work⟩ := e
  have round : roundOf i h.work h.w = roundOf i h'.work h'.w := by rw [work running, w]
  have result' : (h.roundStep i).result = (h'.roundStep i).result := by
    rw [Hce.roundStep_result, Hce.roundStep_result, round, result]
  have busy' : (h.roundStep i).busy = (h'.roundStep i).busy := by
    rw [Hce.roundStep_busy, Hce.roundStep_busy, busy]
  have done' : (h.roundStep i).done = (h'.roundStep i).done := by
    rw [Hce.roundStep_done, Hce.roundStep_done, done]
  exact ⟨by simpa, by simpa, by simp, result', busy', done', by simpa, by simpa, by simpa, fun _ => by simpa⟩

/-- WR_CMD of an illegal word is rejected (R85, R190). -/
theorem exec_wrCmd_illegal {v : Word} (illegal : decodeCommand v = none) (s : State) : exec (.wrCmd v) s = reject s := by
  obtain ⟨c, legal, -⟩ | ⟨-, rejected⟩ := execWrCmd_cases v s
  · cases illegal.symm.trans legal
  · exact rejected

/-! ### What is unobservable: each agent's turn has the same outcome -/

section
variable {s s' : State} (e : s.sameVisible s')
include e

/-- Two updates of the HCE that agree in everything visible. -/
theorem sameOutcome_update {h h' : Hce} (eh : h.sameVisible h') :
    sameOutcome (.next (s.withHce h)) (.next (s'.withHce h')) := by
  obtain ⟨-, pending, schedule, reads⟩ := e
  exact sameOutcome_withHce eh pending schedule reads

theorem State.sameVisible_withPending (rest : List HostAction) :
    ({ s with pending := rest } : State).sameVisible { s' with pending := rest } := by
  obtain ⟨hce, -, schedule, reads⟩ := e
  exact ⟨hce, rfl, schedule, reads⟩

theorem State.sameVisible_withSchedule (turns : List Turn) :
    ({ s with schedule := turns } : State).sameVisible { s' with schedule := turns } := by
  obtain ⟨hce, pending, -, reads⟩ := e
  exact ⟨hce, pending, rfl, reads⟩

/-- A read of a word that both machines hold. -/
theorem sameOutcome_returnData {v v' : Word} (ev : v = v') :
    sameOutcome (.next (s.returnData v)) (.next (s'.returnData v')) := by
  obtain ⟨hce, pending, schedule, reads⟩ := e
  exact ⟨hce, pending, schedule, by simp [ev, reads]⟩

theorem sameOutcome_reject : sameOutcome (reject s) (reject s') :=
  sameOutcome_update e (Hce.sameVisible_setCerr e.1)

theorem sameOutcome_execPack : sameOutcome (execPack s) (execPack s') := by
  obtain ⟨-, len, -, -, busy, -⟩ := e.1
  unfold execPack
  rw [← busy, ← len]
  split_ifs
  · exact sameOutcome_reject e
  · exact sameOutcome_update e (Hce.sameVisible_packMessage e.1)
  · exact sameOutcome_update e (Hce.sameVisible_setPerr e.1)

theorem sameOutcome_execStart : sameOutcome (execStart s) (execStart s') := by
  obtain ⟨-, -, -, -, busy, -, perr, -⟩ := e.1
  unfold execStart
  rw [← busy, ← perr]
  split_ifs
  · exact sameOutcome_reject e
  · exact sameOutcome_update e (Hce.sameVisible_beginRun e.1)

theorem sameOutcome_execWrW (k : BitVec 4) (v : Word) : sameOutcome (execWrW k v s) (execWrW k v s') := by
  unfold execWrW
  rw [← Hce.sameVisible_busy e.1]
  split_ifs
  · exact sameOutcome_reject e
  · exact sameOutcome_update e (Hce.sameVisible_writeW e.1 k v)

theorem sameOutcome_exec_command (c : Command) : sameOutcome (exec c.toInstr s) (exec c.toInstr s') := by
  cases c with
  | nop => exact e
  | clear => exact sameOutcome_update e (Hce.sameVisible_clearMessage e.1)
  | append b => exact sameOutcome_update e (Hce.sameVisible_appendByte e.1 b)
  | pack => exact sameOutcome_execPack e
  | start => exact sameOutcome_execStart e

theorem sameOutcome_exec (i : Instr) : sameOutcome (exec i s) (exec i s') := by
  obtain ⟨w, -, -, result, -⟩ := e.1
  cases i with
  | nop => exact sameOutcome_exec_command e .nop
  | clear => exact sameOutcome_exec_command e .clear
  | append b => exact sameOutcome_exec_command e (.append b)
  | pack => exact sameOutcome_exec_command e .pack
  | start => exact sameOutcome_exec_command e .start
  | wrCmd v =>
    cases hv : decodeCommand v with
    | some c =>
      rw [exec_wrCmd_legal hv, exec_wrCmd_legal hv]
      exact sameOutcome_exec_command e c
    | none =>
      rw [exec_wrCmd_illegal hv, exec_wrCmd_illegal hv]
      exact sameOutcome_reject e
  | rdStatus => exact sameOutcome_returnData e (Hce.sameVisible_statusWord e.1)
  | rdResult => exact sameOutcome_returnData e result
  | rdW k => exact sameOutcome_returnData e (by simp only [Hce.readW, w])
  | wrW k v => exact sameOutcome_execWrW e k v

theorem sameOutcome_performAccess (a : Access) : sameOutcome (performAccess a s) (performAccess a s') := by
  unfold performAccess
  split
  · exact sameOutcome_exec e _
  · rfl

theorem sameOutcome_hostTurn : sameOutcome (hostTurn s) (hostTurn s') := by
  have all := e
  obtain ⟨hce, pending, -, -⟩ := e
  cases hp : s.pending with
  | nil => rw [hostTurn_done hp, hostTurn_done (pending.symm.trans hp)]; exact all
  | cons action rest =>
    have hp' : s'.pending = action :: rest := pending.symm.trans hp
    cases action with
    | access a =>
      unfold hostTurn
      rw [hp, hp']
      exact sameOutcome_performAccess (State.sameVisible_withPending all rest) a
    | poll =>
      rw [hostTurn_pollStatus hp, hostTurn_pollStatus hp']
      unfold pollStatus
      rw [← Hce.sameVisible_statusWord hce]
      split_ifs
      · exact sameOutcome_exec all .rdStatus
      · exact sameOutcome_exec (State.sameVisible_withPending all rest) .rdStatus

theorem sameOutcome_engineRound : sameOutcome (engineRound s) (engineRound s') := by
  obtain ⟨-, -, rnd, -, busy, -⟩ := e.1
  cases running : s.hce.busy with
  | false => rw [engineRound_idle running, engineRound_idle (busy.symm.trans running)]; exact e
  | true =>
    unfold engineRound
    rw [if_pos running, if_pos (busy.symm.trans running)]
    by_cases lt : s.hce.rnd.toNat < 64
    · have lt' : s'.hce.rnd.toNat < 64 := rnd ▸ lt
      have same_round : (⟨s'.hce.rnd.toNat, lt'⟩ : Fin 64) = ⟨s.hce.rnd.toNat, lt⟩ := by simp [rnd]
      rw [dif_pos lt, dif_pos lt', same_round]
      exact sameOutcome_update e (Hce.sameVisible_roundStep e.1 running _)
    · rw [dif_neg lt, dif_neg (rnd ▸ lt)]
      rfl

theorem sameOutcome_takeTurn (u : Turn) : sameOutcome (takeTurn u s) (takeTurn u s') := by
  cases u with
  | host => exact sameOutcome_hostTurn e
  | engine => exact sameOutcome_engineRound e
  | reset => exact sameOutcome_update e (Hce.sameVisible_refl _)

end

/-- Settles O43: both machines are at the same turn, and each agent's turn has the same outcome. -/
theorem unobservableStateNeverShows : Obligations.UnobservableStateNeverShows := by
  intro s s' e
  have all := e
  obtain ⟨hce, -, schedule, -⟩ := e
  cases hs : s.schedule with
  | nil =>
    have turn : defaultTurn s' = defaultTurn s := by unfold defaultTurn; rw [Hce.sameVisible_busy hce]
    rw [step_default hs, step_default (schedule.symm.trans hs), turn]
    exact sameOutcome_takeTurn all _
  | cons u turns =>
    rw [step_scheduled hs, step_scheduled (schedule.symm.trans hs)]
    exact sameOutcome_takeTurn (State.sameVisible_withSchedule all turns) u

/-! ### STATUS, R29 -/

/-- A field of a word, bit by bit. -/
theorem extractLsb'_eq_of_getLsbD {w n start : Nat} {v : BitVec w} {x : BitVec n}
    (bits : ∀ i < n, v.getLsbD (start + i) = x.getLsbD i) : v.extractLsb' start n = x := by
  apply BitVec.eq_of_getLsbD_eq
  intro i lt
  rw [BitVec.getLsbD_extractLsb', bits i lt]
  simp [lt]

theorem Hce.statusWord_len (h : Hce) : h.statusWord.extractLsb' 8 6 = h.len :=
  extractLsb'_eq_of_getLsbD fun i lt => by
    rw [Hce.statusWord_getLsbD]
    grind

theorem Hce.statusWord_rnd (h : Hce) : h.statusWord.extractLsb' 16 7 = h.rnd :=
  extractLsb'_eq_of_getLsbD fun i lt => by
    rw [Hce.statusWord_getLsbD]
    grind

/-- The reserved bits of STATUS. -/
theorem Hce.statusWord_reserved (h : Hce) {start n : Nat}
    (reserved : ∀ i < n, (5 ≤ start + i ∧ start + i < 8) ∨ (14 ≤ start + i ∧ start + i < 16) ∨ 23 ≤ start + i) :
    h.statusWord.extractLsb' start n = 0#n :=
  extractLsb'_eq_of_getLsbD fun i lt => by
    have range := reserved i lt
    rw [Hce.statusWord_getLsbD]
    grind

theorem Hce.statusWord_mfull (h : Hce) : h.statusWord.getLsbD 4 = true ↔ h.len = 56#6 := by
  rw [Hce.statusWord_getLsbD]
  simp [Hce.mfull]

/-- R87: a descriptor that belongs to no row of R89 is no instruction. -/
theorem decodeBus_of_no_row {d : BitVec 9} (no_row : ∀ r ∈ busRows, r.hit d = false) (data : Word) :
    decodeBus d data = none := by
  simp only [busRows, List.forall_mem_cons] at no_row
  simp [decodeBus, no_row]

theorem performAccess_error {a : Access} {err : DecodeError} (hd : decodeAccess a = .error err) (s : State) :
    performAccess a s = .fault (.accessError a.off) := by
  unfold performAccess; rw [hd]; rfl

/-- R29: STATUS is read-only. -/
theorem decodeAccess_write_status (data : Word) :
    decodeAccess { write := true, width := .bits 32, off := 0x04#8, data := data } = .error (.accessError 0x04#8) := by
  have no_row : decodeBus (descriptor true 0x04#8) data = none := decodeBus_of_no_row (by decide) data
  simp only [decodeAccess, no_row]
  rfl

/-- Settles O23: the word returned is `statusWord`, whose bits are R29's; no row of R89 is a write of STATUS. -/
theorem statusReadReturnsEveryField : Obligations.StatusReadReturnsEveryField := by
  intro s
  refine ⟨⟨s.hce.statusWord, rfl, ?_⟩, fun data => performAccess_error (decodeAccess_write_status data) s⟩
  have bit := s.hce.statusWord_getLsbD
  exact ⟨bit 0, bit 1, bit 2, bit 3, s.hce.statusWord_mfull, s.hce.statusWord_reserved (by omega), s.hce.statusWord_len,
    s.hce.statusWord_reserved (by omega), s.hce.statusWord_rnd, s.hce.statusWord_reserved (by omega)⟩

/-! ### Reset, R34 -/

theorem Hce.reset_statusWord : Hce.reset.statusWord = 0x00000000#32 := by decide

theorem Hce.reset_w (k : Fin 16) : Hce.reset.w[k.val] = 0x00000000#32 := by
  simp [Hce.reset]

/-- Settles O36: each register of `Hce.reset` by its definition, W and STATUS by the lemmas above. -/
theorem resetStateHasTheResetValues : Obligations.ResetStateHasTheResetValues :=
  ⟨rfl, rfl, rfl, rfl, rfl, rfl, rfl, Hce.reset_w, Hce.reset_statusWord⟩

/-! ### The engines of a platform, R35 -/

/-- Everything a step of engine `n` can do to the platform: nothing if there is no such engine, or a step of its machine. -/
theorem Platform.stepEngine_cases {n : Nat} {pl pl' : Platform} (h : pl.stepEngine n = .next pl') :
    (pl.engines[n]? = none ∧ pl' = pl) ∨
    (∃ e t, pl.engines[n]? = some e ∧ step e.machine = .next t ∧
      pl' = { engines := pl.engines.set n { e with machine := t } }) := by
  unfold Platform.stepEngine at h
  split at h
  · exact .inl ⟨‹_›, by simpa using h.symm⟩
  · rename_i e he
    split at h
    · exact .inr ⟨e, _, he, ‹_›, by simpa using h.symm⟩
    · cases h
    · cases h

/-- Settles O57: a step of engine `n` replaces at most entry `n` of the list, and keeps its base. -/
theorem enginesOfAPlatformAreIndependent : Obligations.EnginesOfAPlatformAreIndependent := by
  intro pl pl' n h
  obtain ⟨absent, rfl⟩ | ⟨e, t, present, stepped, rfl⟩ := Platform.stepEngine_cases h
  · exact ⟨rfl, fun _ _ => rfl, fun e present => by simp [absent] at present⟩
  · obtain ⟨lt, at_n⟩ := List.getElem?_eq_some_iff.mp present
    refine ⟨?_, fun k other => List.getElem?_set_ne other.symm, fun e' present' => ?_⟩
    · rw [List.map_set, ← at_n, ← List.getElem_map PlatformEngine.base (h := by simpa using lt), List.set_getElem_self]
    · obtain rfl : e = e' := Option.some.inj (present.symm.trans present')
      exact ⟨t, stepped, List.getElem?_set_self lt⟩

end Sys2Proof.Machine
end

section
/-!
PROOFS of 20_memory.md: what a 32-bit access does at each offset of the window (O7), the window described as bytes (O27), which
accesses may be repeated (O26), and the windows of a platform's engines (O58).
-/

namespace Sys2Proof.Machine

/-! ### The descriptors of the register map, R52, R88 and R89 -/

theorem wOffset_toNat (k : BitVec 4) : (wOffset k).toNat = 0x40 + 4 * k.toNat := by
  revert k; decide

theorem wIndex_descriptor_wOffset (write : Bool) (k : BitVec 4) : wIndex (descriptor write (wOffset k)) = k := by
  revert write k; decide

/-- R89: the rows hold no offset but those that R52 lists, whatever the direction. -/
theorem offset_listed_of_busRow_hit : ∀ (write : Bool) (off : BitVec 8), ∀ r ∈ busRows, r.hit (descriptor write off) = true →
    off = 0x00#8 ∨ off = 0x04#8 ∨ off = 0x08#8 ∨ ∃ k, off = wOffset k := by
  decide

theorem decodeBus_read_wOffset (k : BitVec 4) (data : Word) :
    decodeBus (descriptor false (wOffset k)) data = some (.rdW k) := by
  have own : busRows.map (·.hit (descriptor false (wOffset k))) = [false, false, false, true, false] := Laws.OwnRow.rdW k
  simp only [busRows, List.map_cons, List.map_nil, List.cons.injEq] at own
  simp [decodeBus, own, wIndex_descriptor_wOffset]

theorem decodeBus_write_wOffset (k : BitVec 4) (data : Word) :
    decodeBus (descriptor true (wOffset k)) data = some (.wrW k data) := by
  have own : busRows.map (·.hit (descriptor true (wOffset k))) = [false, false, false, false, true] := Laws.OwnRow.wrW k data
  simp only [busRows, List.map_cons, List.map_nil, List.cons.injEq] at own
  simp [decodeBus, own, wIndex_descriptor_wOffset]

theorem decodeBus_unlisted {off : BitVec 8} (cmd : off ≠ 0x00#8) (status : off ≠ 0x04#8) (result : off ≠ 0x08#8)
    (block : ∀ k, off ≠ wOffset k) (write : Bool) (data : Word) : decodeBus (descriptor write off) data = none := by
  refine decodeBus_of_no_row (fun r row => ?_) data
  by_contra hit
  obtain e | e | e | ⟨k, e⟩ := offset_listed_of_busRow_hit write off r row (by simpa using hit)
  · exact cmd e
  · exact status e
  · exact result e
  · exact block k e

/-! ### What a 32-bit access does -/

section
variable {write : Bool} {off : BitVec 8} {data : Word}

theorem performAccess_of_decodeBus {i : Instr} (h : decodeBus (descriptor write off) data = some i) (s : State) :
    performAccess { write := write, width := .bits 32, off := off, data := data } s = exec i s :=
  performAccess_ok (by simp [decodeAccess, Access.width32, h]) s

theorem performAccess_of_decodeBus_none (h : decodeBus (descriptor write off) data = none) (s : State) :
    performAccess { write := write, width := .bits 32, off := off, data := data } s = .fault (.accessError off) :=
  performAccess_error (err := .accessError off) (by simp [decodeAccess, Access.width32, h]) s

end

/-- Settles O7: each entry of the register map by what its descriptor decodes to. -/
theorem registerMapOfTheWindow : Obligations.RegisterMapOfTheWindow := by
  intro off data s rd wr
  refine ⟨?_, ?_, ?_, fun k at_k => ?_, fun cmd status result block => ?_⟩
  · rintro rfl
    exact ⟨performAccess_of_decodeBus_none (decodeBus_of_no_row (by decide) data) s, performAccess_of_decodeBus rfl s⟩
  · rintro rfl
    exact ⟨performAccess_of_decodeBus rfl s, performAccess_of_decodeBus_none (decodeBus_of_no_row (by decide) data) s⟩
  · rintro rfl
    exact ⟨performAccess_of_decodeBus rfl s, performAccess_of_decodeBus_none (decodeBus_of_no_row (by decide) data) s⟩
  · obtain rfl : off = wOffset k := BitVec.eq_of_toNat_eq (at_k.trans (wOffset_toNat k).symm)
    exact ⟨performAccess_of_decodeBus (decodeBus_read_wOffset k data) s,
      performAccess_of_decodeBus (decodeBus_write_wOffset k data) s⟩
  · have block' : ∀ k, off ≠ wOffset k := fun k e => block k (e ▸ wOffset_toNat k)
    have unlisted := fun write => decodeBus_unlisted cmd status result block' write data
    exact ⟨performAccess_of_decodeBus_none (unlisted false) s, performAccess_of_decodeBus_none (unlisted true) s⟩

/-! ### The byte view of the window, R55 -/

theorem Hce.readRegister_status (h : Hce) : h.readRegister 0x04#8 = some h.statusWord := rfl

theorem Hce.readRegister_result (h : Hce) : h.readRegister 0x08#8 = some h.result := rfl

/-- The fields of W[k]'s offset are those of R88, and no other register of the map has them. -/
theorem wOffset_fields : ∀ k : BitVec 4, wOffset k ≠ 0x04#8 ∧ wOffset k ≠ 0x08#8 ∧ (wOffset k).extractLsb' 6 2 = 0b01#2 ∧
    (wOffset k).extractLsb' 0 2 = 0b00#2 ∧ (wOffset k).extractLsb' 2 4 = k := by
  decide

theorem Hce.readRegister_wOffset (h : Hce) (k : BitVec 4) : h.readRegister (wOffset k) = some (h.readW k) := by
  obtain ⟨not_status, not_result, region, aligned, index⟩ := wOffset_fields k
  unfold Hce.readRegister
  rw [if_neg not_status, if_neg not_result, if_pos ⟨region, aligned⟩, index]

/-- Byte `j` of the register at an aligned offset: `off + j` selects the register by its upper bits and the byte by its lower. -/
theorem Hce.windowByte_add {h : Hce} {off : BitVec 8} {v : Word} (read : h.readRegister off = some v)
    (aligned : off.extractLsb' 0 2 = 0b00#2) {j : Nat} (lt : j < 4) :
    h.windowByte (BitVec.ofNat 8 (off.toNat + j)) = some (byteOf v j) := by
  have mul4 : off.toNat % 4 = 0 := by simpa using congrArg BitVec.toNat aligned
  have register : ((BitVec.ofNat 8 (off.toNat + j)).extractLsb' 2 6 ++ 0b00#2).cast rfl = off := by
    apply BitVec.eq_of_toNat_eq
    rw [BitVec.toNat_cast, BitVec.toNat_append]
    simp [Nat.shiftRight_eq_div_pow, Nat.shiftLeft_eq]
    omega
  have byte : ((BitVec.ofNat 8 (off.toNat + j)).extractLsb' 0 2).toNat = j := by
    simp
    omega
  unfold Hce.windowByte
  rw [register, read, byte]

/-- Settles O27: each register described stands at an aligned offset of the map. -/
theorem windowBytesAreLittleEndian : Obligations.WindowBytesAreLittleEndian := by
  intro h j lt
  refine ⟨Hce.windowByte_add h.readRegister_status (by decide) lt, Hce.windowByte_add h.readRegister_result (by decide) lt,
    fun k lt_k => ?_⟩
  obtain ⟨-, -, -, aligned, -⟩ := wOffset_fields (BitVec.ofNat 4 k)
  have index : (BitVec.ofNat 4 k).toNat = k := Nat.mod_eq_of_lt lt_k
  have byte := Hce.windowByte_add (h.readRegister_wOffset (BitVec.ofNat 4 k)) aligned lt
  simpa only [wOffset_toNat, Hce.readW, index, byteOf] using byte

/-! ### What may be repeated, R58 -/

/-- A read returns a word that is determined by the HCE, which it leaves. -/
theorem exec_read {i : Instr} (read : i = .rdStatus ∨ i = .rdResult ∨ ∃ k, i = .rdW k) :
    ∃ word : Hce → Word, ∀ s, exec i s = .next (s.returnData (word s.hce)) := by
  obtain rfl | rfl | ⟨k, rfl⟩ := read
  · exact ⟨Hce.statusWord, fun _ => rfl⟩
  · exact ⟨Hce.result, fun _ => rfl⟩
  · exact ⟨fun h => h.readW k, fun _ => rfl⟩

@[simp] theorem Hce.setCerr_setCerr (h : Hce) : h.setCerr.setCerr = h.setCerr := rfl

@[simp] theorem Hce.writeW_writeW (h : Hce) (k : BitVec 4) (v : Word) : (h.writeW k v).writeW k v = h.writeW k v := by
  simp [Hce.writeW]

theorem exec_wrW_busy {s : State} (busy : s.hce.busy = true) (k : BitVec 4) (v : Word) :
    exec (.wrW k v) s = .next (s.withHce s.hce.setCerr) := if_pos busy

theorem exec_wrW_idle {s : State} (idle : s.hce.busy = false) (k : BitVec 4) (v : Word) :
    exec (.wrW k v) s = .next (s.withHce (s.hce.writeW k v)) := if_neg (by simp [idle])

/-- A write of W leaves BUSY, so it is performed or rejected the second time as the first. -/
theorem exec_wrW_idempotent {s t : State} {k : BitVec 4} {v : Word} (h : exec (.wrW k v) s = .next t) :
    exec (.wrW k v) t = .next t := by
  obtain ⟨busy, rfl⟩ | ⟨idle, rfl⟩ := execWrW_cases h
  · simpa using exec_wrW_busy (s := s.withHce s.hce.setCerr) busy k v
  · simpa using exec_wrW_idle (s := s.withHce (s.hce.writeW k v)) idle k v

theorem Hce.appendByte_len {h : Hce} (b : Byte) (lt : h.len.toNat < 56) :
    (h.appendByte b).len.toNat = h.len.toNat + 1 := by
  rw [Hce.appendByte_fits b lt, BitVec.toNat_add]
  simp
  omega

/-- Settles O26: a read by `exec_read`, a write of W by its idempotence, two APPENDs by LEN after each, START by I2. -/
theorem readsAreFreeOfEffectsAndBlockWritesIdempotent : Obligations.ReadsAreFreeOfEffectsAndBlockWritesIdempotent := by
  refine ⟨fun s t u i read first second => ?_, fun s t k v => exec_wrW_idempotent, fun s => rfl,
    fun s t u b room first second => ?_, fun s t inv done perr started => ?_⟩
  · obtain ⟨word, returns⟩ := exec_read read
    obtain rfl : s.returnData (word s.hce) = t := by simpa [returns] using first
    obtain rfl : (s.returnData (word s.hce)).returnData (word s.hce) = u := by simpa [returns] using second
    exact ⟨rfl, rfl, rfl, word s.hce, rfl, rfl⟩
  · obtain rfl := execAppend_next first
    obtain rfl := execAppend_next second
    have once := Hce.appendByte_len (h := s.hce) b (by omega)
    have twice := Hce.appendByte_len (h := s.hce.appendByte b) b (by omega)
    simp only [State.withHce_hce]
    omega
  · obtain ⟨-, i2, -⟩ := inv
    obtain ⟨idle, -⟩ := i2 done
    obtain ⟨rejected, -⟩ | ⟨-, -, rfl⟩ := execStart_cases started
    · simp [idle, perr] at rejected
    · exact ⟨rfl, rfl, rfl⟩

/-! ### The windows of a platform, R9 and R51 -/

theorem windowOffset_inside {base addr : Nat} (ge : base ≤ addr) (lt : addr < base + 256) :
    windowOffset base addr = some (BitVec.ofNat 8 (addr - base)) := if_pos ⟨ge, lt⟩

theorem windowOffset_outside {base addr : Nat} (outside : addr < base ∨ base + 256 ≤ addr) :
    windowOffset base addr = none := if_neg (by simp only [Config.windowBytes]; omega)

theorem windowOffset_add (base : Nat) (off : BitVec 8) : windowOffset base (base + off.toNat) = some off := by
  rw [windowOffset_inside (Nat.le_add_right _ _) (by omega)]
  simp

/-- An address in the window of a 256-byte aligned base determines the base. -/
theorem base_of_windowOffset {base addr : Nat} (aligned : base % 256 = 0) (inside : (windowOffset base addr).isSome = true) :
    base = 256 * (addr / 256) := by
  have range : ¬ (addr < base ∨ base + 256 ≤ addr) := fun outside => by
    simp [windowOffset_outside outside] at inside
  omega

/-- R9: the bases of a platform are aligned and all different. -/
theorem Platform.wf_bases {p : Config.Params} {pl : Platform} (wf : pl.wf p = true) :
    (∀ e ∈ pl.engines, e.base % 256 = 0) ∧ (pl.engines.map PlatformEngine.base).Nodup := by
  simp only [Platform.wf, Config.Params.wf, Bool.and_eq_true, List.all_eq_true, decide_eq_true_eq] at wf
  obtain ⟨⟨⟨⟨⟨⟨-, aligned⟩, distinct⟩, -⟩, -⟩, -⟩, bases⟩ := wf
  rw [← bases] at aligned distinct
  exact ⟨fun e he => aligned e.base (List.mem_map_of_mem he), distinct⟩

/-- R51: an access to an address outside an engine's window does not concern it. -/
theorem PlatformEngine.issue_outside {e : PlatformEngine} {addr : Nat} (outside : windowOffset e.base addr = none)
    (write : Bool) (width : Width) (data : Word) : e.issue write width addr data = e := by
  unfold PlatformEngine.issue
  rw [outside]

/-- Settles O58: two engines whose windows hold the address have the same base, and the bases are all different. -/
theorem addressSelectsAtMostOneEngine : Obligations.AddressSelectsAtMostOneEngine := by
  refine ⟨windowOffset_add, fun _ _ => windowOffset_outside, fun p pl addr i j e f wf at_i at_j in_e in_f => ?_,
    fun pl write width addr data outside => ?_⟩
  · obtain ⟨aligned, distinct⟩ := Platform.wf_bases wf
    have same_base : e.base = f.base :=
      (base_of_windowOffset (aligned e (List.mem_of_getElem? at_i)) in_e).trans
        (base_of_windowOffset (aligned f (List.mem_of_getElem? at_j)) in_f).symm
    obtain ⟨lt, -⟩ := List.getElem?_eq_some_iff.mp at_i
    have in_range : i < (pl.engines.map PlatformEngine.base).length := by simpa using lt
    exact (List.getElem?_inj in_range distinct).mp (by simp [at_i, at_j, same_base])
  · have unchanged : pl.engines.map (PlatformEngine.issue write width addr data) = pl.engines.map id :=
      List.map_congr_left fun e he => PlatformEngine.issue_outside (outside e he) write width data
    simp [Platform.issue, unchanged]

end Sys2Proof.Machine
end

section
/-!
PROOFS of 30_encoding.md: the decoder and the encoder are inverse to each other (O1, O2), the legal words are those of exactly
one row of R83 (O4), the illegal ones and their one effect (O5), words written out from the tables (O3), and a word of the opcode
table put in front of the host's actions (O33).
-/

namespace Sys2Proof.Machine

/-! ### The fields of a command word, R80 -/

@[simp] theorem cmdWord_op (op : BitVec 4) (data : Byte) : (cmdWord op data).extractLsb' 0 4 = op :=
  extractLsb'_eq_of_getLsbD fun i lt => by
    rw [cmdWord_getLsbD, Nat.zero_add, if_pos lt]

@[simp] theorem cmdWord_rsv0 (op : BitVec 4) (data : Byte) : (cmdWord op data).extractLsb' 4 4 = 0#4 :=
  extractLsb'_eq_of_getLsbD fun i lt => by
    rw [cmdWord_getLsbD, if_neg (by omega), if_pos (by omega), BitVec.getLsbD_zero]

@[simp] theorem cmdWord_data (op : BitVec 4) (data : Byte) : (cmdWord op data).extractLsb' 8 8 = data :=
  extractLsb'_eq_of_getLsbD fun i lt => by
    rw [cmdWord_getLsbD, if_neg (by omega), if_neg (by omega), Nat.add_sub_cancel_left]

@[simp] theorem cmdWord_rsv1 (op : BitVec 4) (data : Byte) : (cmdWord op data).extractLsb' 16 16 = 0#16 :=
  extractLsb'_eq_of_getLsbD fun i lt => by
    rw [cmdWord_getLsbD, if_neg (by omega), if_neg (by omega), BitVec.getLsbD_of_ge data _ (by omega), BitVec.getLsbD_zero]

/-! ### Commands and their words, R82 and R83 -/

/-- The mask of APPEND's row leaves DATA open and fixes every other field. -/
theorem eq_cmdWord_of_rowAppend_hit {v : Word} (hit : rowAppend.hit v = true) : v = cmdWord 0x2#4 (cmdData v) := by
  have masked : v &&& 0xFFFF00FF#32 = 0x00000002#32 := of_decide_eq_true hit
  have field : ∀ start n, v.extractLsb' start n &&& (0xFFFF00FF#32).extractLsb' start n = (0x00000002#32).extractLsb' start n :=
    fun start n => by rw [← BitVec.extractLsb'_and, masked]
  have op : v.extractLsb' 0 4 = 0x2#4 := (BitVec.and_allOnes).symm.trans (field 0 4)
  have rsv0 : v.extractLsb' 4 4 = 0#4 := (BitVec.and_allOnes).symm.trans (field 4 4)
  have rsv1 : v.extractLsb' 16 16 = 0#16 := (BitVec.and_allOnes).symm.trans (field 16 16)
  exact op ▸ cmdWord_fields v rsv0 rsv1

theorem decodeCommand_encodeCommand (c : Command) : decodeCommand (encodeCommand c) = some c := by
  cases c with
  | append b => rw [← appendWord_eq, decodeCommand_append]
  | nop | clear | pack | start => decide

theorem eq_encodeCommand_of_decodeCommand {v : Word} {c : Command} (h : decodeCommand v = some c) : v = encodeCommand c := by
  simp only [decodeCommand, rowNop_hit, rowClear_hit, rowPack_hit, rowStart_hit, decide_eq_true_eq] at h
  split_ifs at h with nop clear append pack start <;> obtain rfl := Option.some.inj h
  · exact nop
  · exact clear
  · exact eq_cmdWord_of_rowAppend_hit append
  · exact pack
  · exact start

/-- R83: the words of a command are its own encoding and no other. -/
theorem decodeCommand_eq_some_iff {v : Word} {c : Command} : decodeCommand v = some c ↔ v = encodeCommand c :=
  ⟨eq_encodeCommand_of_decodeCommand, fun h => h ▸ decodeCommand_encodeCommand c⟩

theorem encode_toInstr (c : Command) : encode c.toInstr = .cmd (encodeCommand c) := by
  cases c <;> rfl

/-! ### Bus accesses and their descriptors, R87 to R89 -/

theorem descriptor_msb (write : Bool) (off : BitVec 8) : (descriptor write off).msb = write := by
  revert write off; decide

/-- R87: a descriptor is its bit WR and its offset. -/
theorem descriptor_fields (d : BitVec 9) : descriptor d.msb (d.extractLsb' 0 8) = d := by
  revert d; decide

theorem eq_descriptor_of_rowWrCmd_hit : ∀ {d : BitVec 9}, rowWrCmd.hit d = true → d = descriptor true 0x00#8 := by decide

theorem eq_descriptor_of_rowRdStatus_hit : ∀ {d : BitVec 9}, rowRdStatus.hit d = true → d = descriptor false 0x04#8 := by decide

theorem eq_descriptor_of_rowRdResult_hit : ∀ {d : BitVec 9}, rowRdResult.hit d = true → d = descriptor false 0x08#8 := by decide

/-- R88: the four bits that the masks of the W rows leave open are the index. -/
theorem eq_descriptor_of_rowRdW_hit : ∀ {d : BitVec 9},
    rowRdW.hit d = true → d = descriptor false (wOffset (wIndex d)) := by decide

theorem eq_descriptor_of_rowWrW_hit : ∀ {d : BitVec 9},
    rowWrW.hit d = true → d = descriptor true (wOffset (wIndex d)) := by decide

/-- Log entry 11: the bus word is part of the encoding of a write, and of no read. -/
theorem encode_of_decodeBus {d : BitVec 9} {data : Word} {i : Instr} (h : decodeBus d data = some i) :
    encode i = .bus d (if d.msb then data else 0#32) := by
  unfold decodeBus at h
  split_ifs at h with wrCmd rdStatus rdResult rdW wrW <;> obtain rfl := Option.some.inj h
  · obtain rfl := eq_descriptor_of_rowWrCmd_hit wrCmd
    rfl
  · obtain rfl := eq_descriptor_of_rowRdStatus_hit rdStatus
    rfl
  · obtain rfl := eq_descriptor_of_rowRdResult_hit rdResult
    rfl
  · have own := eq_descriptor_of_rowRdW_hit rdW
    rw [own, descriptor_msb, wIndex_descriptor_wOffset]
    rfl
  · have own := eq_descriptor_of_rowWrW_hit wrW
    rw [own, descriptor_msb, wIndex_descriptor_wOffset]
    rfl

/-! ### Encoded instructions of either format -/

theorem decode_cmd_eq_ok_iff {v : Word} {i : Instr} :
    decode (.cmd v) = .ok i ↔ ∃ c, decodeCommand v = some c ∧ c.toInstr = i := by
  cases h : decodeCommand v <;> simp [decode, h]

theorem decode_bus_eq_ok_iff {d : BitVec 9} {data : Word} {i : Instr} :
    decode (.bus d data) = .ok i ↔ decodeBus d data = some i := by
  cases h : decodeBus d data <;> simp [decode, h]

theorem decode_encode_toInstr (c : Command) : decode (encode c.toInstr) = .ok c.toInstr := by
  rw [encode_toInstr, decode_cmd_eq_ok_iff]
  exact ⟨c, decodeCommand_encodeCommand c, rfl⟩

theorem decode_encode (i : Instr) : decode (encode i) = .ok i := by
  cases i with
  | nop => exact decode_encode_toInstr .nop
  | clear => exact decode_encode_toInstr .clear
  | append b => exact decode_encode_toInstr (.append b)
  | pack => exact decode_encode_toInstr .pack
  | start => exact decode_encode_toInstr .start
  | wrCmd v => exact decode_bus_eq_ok_iff.mpr rfl
  | rdStatus => exact decode_bus_eq_ok_iff.mpr rfl
  | rdResult => exact decode_bus_eq_ok_iff.mpr rfl
  | rdW k => exact decode_bus_eq_ok_iff.mpr (decodeBus_read_wOffset k 0#32)
  | wrW k v => exact decode_bus_eq_ok_iff.mpr (decodeBus_write_wOffset k v)

/-- Settles O1: a command's word by R83, a descriptor by its row of R89. -/
theorem encodedInstructionDecodesToItself : Obligations.EncodedInstructionDecodesToItself :=
  fun i _ => decode_encode i

/-- Settles O2: the row that a word or a descriptor hits fixes every bit outside the operand. -/
theorem decodedWordIsTheEncodingOfItsInstruction : Obligations.DecodedWordIsTheEncodingOfItsInstruction := by
  refine ⟨fun v i h => ?_, fun d data i h => encode_of_decodeBus (decode_bus_eq_ok_iff.mp h)⟩
  obtain ⟨c, legal, rfl⟩ := decode_cmd_eq_ok_iff.mp h
  rw [encode_toInstr, eq_encodeCommand_of_decodeCommand legal]

/-! ### Legal and illegal words, R83 and R85 -/

theorem decodeCommand_eq_none_iff {v : Word} : decodeCommand v = none ↔ ∀ r ∈ cmdRows, r.hit v = false := by
  simp only [cmdRows, List.forall_mem_cons]
  unfold decodeCommand
  split_ifs <;> simp_all

theorem length_filter_hit_encodeCommand (c : Command) : (cmdRows.filter (·.hit (encodeCommand c))).length = 1 := by
  cases c with
  | append b => revert b; decide
  | nop | clear | pack | start => decide

/-- The rows of R83 do not overlap: a legal word belongs to one, an illegal word to none. -/
theorem length_filter_hit (v : Word) :
    (cmdRows.filter (·.hit v)).length = if (decodeCommand v).isSome then 1 else 0 := by
  cases h : decodeCommand v with
  | none => simpa using decodeCommand_eq_none_iff.mp h
  | some c =>
    obtain rfl := eq_encodeCommand_of_decodeCommand h
    exact length_filter_hit_encodeCommand c

theorem append_bits_eq_encodeCommand (b : Byte) : (0x0000#16 ++ b ++ 0b00000010#8).cast rfl = encodeCommand (.append b) := by
  revert b; decide

/-- Settles O4: the number of rows that a word hits is `length_filter_hit`; each row's word is the encoding of its command. -/
theorem legalWordBelongsToExactlyOneCommandRow : Obligations.LegalWordBelongsToExactlyOneCommandRow := by
  refine ⟨rfl, fun v => (length_filter_hit v).trans_le ?_, fun v => ?_, decodeCommand_encodeCommand .nop,
    decodeCommand_encodeCommand .clear, fun b => ?_, decodeCommand_encodeCommand .pack, decodeCommand_encodeCommand .start⟩
  · split <;> omega
  · rw [show (cmdRows.filter fun r => v &&& r.mask == r.pattern).length = _ from length_filter_hit v]
    cases decodeCommand v <;> simp
  · rw [append_bits_eq_encodeCommand]
    exact decodeCommand_encodeCommand (.append b)

theorem exists_encodeCommand_eq_cmdWord {op : BitVec 4} {data : Byte} (lt : op.toNat < 5)
    (operand : data = 0#8 ∨ op = 2#4) : ∃ c, cmdWord op data = encodeCommand c := by
  obtain rfl | rfl := operand
  · have ops : op = 0#4 ∨ op = 1#4 ∨ op = 2#4 ∨ op = 3#4 ∨ op = 4#4 := by revert op; decide
    obtain rfl | rfl | rfl | rfl | rfl := ops
    · exact ⟨.nop, rfl⟩
    · exact ⟨.clear, rfl⟩
    · exact ⟨.append 0#8, rfl⟩
    · exact ⟨.pack, rfl⟩
    · exact ⟨.start, rfl⟩
  · exact ⟨.append data, rfl⟩

/-- R85, from the side of the legal words. -/
theorem exists_decodeCommand_eq_some_iff (v : Word) : (∃ c, decodeCommand v = some c) ↔
    (v.extractLsb' 0 4).toNat < 5 ∧ v.extractLsb' 4 4 = 0#4 ∧ v.extractLsb' 16 16 = 0#16 ∧
      (v.extractLsb' 8 8 = 0#8 ∨ v.extractLsb' 0 4 = 2#4) := by
  simp only [decodeCommand_eq_some_iff]
  constructor
  · rintro ⟨c, rfl⟩
    cases c <;> simp [encodeCommand]
  · rintro ⟨op, rsv0, rsv1, data⟩
    obtain ⟨c, word⟩ := exists_encodeCommand_eq_cmdWord op data
    exact ⟨c, (cmdWord_fields v rsv0 rsv1).trans word⟩

/-- Settles O5: the negation of `exists_decodeCommand_eq_some_iff`, and WR_CMD of an illegal word is `reject`. -/
theorem illegalWordSetsCerrAndNothingElse : Obligations.IllegalWordSetsCerrAndNothingElse := by
  refine fun v => ⟨?_, exec_wrCmd_illegal⟩
  rw [← Option.not_isSome_iff_eq_none, Option.isSome_iff_exists, exists_decodeCommand_eq_some_iff]
  simp only [not_and_or, not_or, not_lt]

/-! ### Words of the opcode table -/

theorem decodeTableWord_eq_some_iff {nbits w : Nat} {i : Instr} :
    decodeTableWord nbits w = some i ↔ ∃ e, encodedOfTable nbits w = some e ∧ decode e = .ok i := by
  unfold decodeTableWord
  cases encodedOfTable nbits w with
  | none => simp
  | some e => cases h : decode e <;> simp [h]

theorem decodeTableWord_of_encode {nbits w : Nat} {i : Instr} (h : encodedOfTable nbits w = some (encode i)) :
    decodeTableWord nbits w = some i :=
  decodeTableWord_eq_some_iff.mpr ⟨encode i, h, decode_encode i⟩

/-- Settles O3: each of the ten words is the encoding of its instruction; the last two hit no row. -/
theorem wordsWrittenOutFromTheSpecDecode : Obligations.WordsWrittenOutFromTheSpecDecode := by
  refine ⟨?_, ?_, ?_, ?_, ?_, ?_, ?_, ?_, ?_, ?_, by decide, by decide⟩ <;> exact decodeTableWord_of_encode (by decide)

/-! ### Fetched words, R80, R87 and R89 -/

theorem step_withFetchWord {s : State} {nbits w : Nat} {e : Encoded} (h : encodedOfTable nbits w = some e) :
    step (s.withFetchWord nbits w) = performAccess e.toAccess s := by
  unfold State.withFetchWord
  rw [h]
  rfl

/-- The access that carries an encoded instruction performs it: a command through the write of CMD, a descriptor as it is. -/
theorem performAccess_toAccess {e : Encoded} {i : Instr} (h : decode e = .ok i) (s : State) :
    performAccess e.toAccess s = exec i s := by
  cases e with
  | cmd v =>
    obtain ⟨c, legal, rfl⟩ := decode_cmd_eq_ok_iff.mp h
    exact (performAccess_ok (decodeAccess_busWrite_cmd v) s).trans (exec_wrCmd_legal legal s)
  | bus d data =>
    rw [decode_bus_eq_ok_iff, ← descriptor_fields d] at h
    exact performAccess_of_decodeBus h s

/-- Settles O33: the step is the HOST's access that carries the word, and that access performs the instruction. -/
theorem fetchedTableWordRunsItsInstruction : Obligations.FetchedTableWordRunsItsInstruction := by
  intro s nbits w i h
  obtain ⟨e, placed, decoded⟩ := decodeTableWord_eq_some_iff.mp h
  exact (step_withFetchWord placed).trans (performAccess_toAccess decoded s)

end Sys2Proof.Machine
end

section
/-!
PROOFS of 40_packer.md: NOP and CLEAR (O8, O9), APPEND and the loading of a message (O10, O11), and the block that PACK makes of a
message (O12, O13).
-/

namespace Sys2Proof.Machine

/-! ### NOP, R110 -/

/-- R83 and R85: of the words with OP = 0, NOP's is the only legal one. -/
theorem decodeCommand_eq_none_of_op_zero {v : Word} (op : v.extractLsb' 0 4 = 0#4) (ne : v ≠ 0#32) :
    decodeCommand v = none := by
  cases h : decodeCommand v with
  | none => rfl
  | some c =>
    obtain rfl := eq_encodeCommand_of_decodeCommand h
    cases c with
    | nop => exact absurd rfl ne
    | clear | append | pack | start => simp [encodeCommand] at op

/-- Settles O8: NOP by its word, and any other word with OP = 0 is illegal. -/
theorem nopChangesNothingInAnyState : Obligations.NopChangesNothingInAnyState := by
  refine ⟨decode_encode .nop, fun s => ⟨rfl, exec_wrCmd_legal (decodeCommand_encodeCommand .nop) s, fun v op ne => ?_⟩⟩
  exact exec_wrCmd_illegal (decodeCommand_eq_none_of_op_zero op ne) s

/-! ### STATUS as a function of the fields it shows, R29 -/

theorem Hce.statusWord_eq_iff {h h' : Hce} : h.statusWord = h'.statusWord ↔
    h.busy = h'.busy ∧ h.done = h'.done ∧ h.perr = h'.perr ∧ h.cerr = h'.cerr ∧ h.len = h'.len ∧ h.rnd = h'.rnd := by
  constructor
  · intro e
    have bit : ∀ i, h.statusWord.getLsbD i = h'.statusWord.getLsbD i := fun i => by rw [e]
    simp only [Hce.statusWord_getLsbD] at bit
    exact ⟨bit 0, bit 1, bit 2, bit 3, by rw [← h.statusWord_len, e, h'.statusWord_len],
      by rw [← h.statusWord_rnd, e, h'.statusWord_rnd]⟩
  · rintro ⟨busy, done, perr, cerr, len, rnd⟩
    simp only [Hce.statusWord, Hce.mfull, busy, done, perr, cerr, len, rnd]

/-! ### CLEAR, R111 -/

theorem Hce.clearMessage_eq_self {h : Hce} (len : h.len = 0#6) (perr : h.perr = false) (cerr : h.cerr = false) :
    h.clearMessage = h := by
  cases h
  simp_all [Hce.clearMessage, Hce.clearErrors]

/-- STATUS of an idle, full HCE with both error flags set, and what CLEAR makes of it. -/
theorem Hce.clearMessage_statusWord {h : Hce} (status : h.statusWord = 0x0000381C#32) :
    h.clearMessage.statusWord = 0x00000000#32 := by
  have shown : h.statusWord = ({ Hce.reset with len := 56#6, perr := true, cerr := true } : Hce).statusWord :=
    status.trans (by decide)
  obtain ⟨busy, done, -, -, -, rnd⟩ := Hce.statusWord_eq_iff.mp shown
  have cleared : h.clearMessage.statusWord = Hce.reset.statusWord :=
    Hce.statusWord_eq_iff.mpr ⟨busy, done, rfl, rfl, rfl, rnd⟩
  exact cleared.trans Hce.reset_statusWord

/-- Settles O9: the fields by the definition of `clearMessage`, the last two clauses by the lemmas above. -/
theorem clearEmptiesTheMessageAndTheErrorFlags : Obligations.ClearEmptiesTheMessageAndTheErrorFlags := by
  refine ⟨decode_encode .clear, fun s => ⟨s.withHce s.hce.clearMessage, rfl, rfl, rfl, rfl, rfl, rfl, rfl, rfl, rfl, rfl, rfl,
    rfl, rfl, rfl, fun len perr cerr => ?_, Hce.clearMessage_statusWord⟩⟩
  rw [Hce.clearMessage_eq_self len perr cerr, State.withHce_self]

/-! ### APPEND, R112 -/

theorem Hce.appendByte_msg_at_len {h : Hce} (b : Byte) (lt : h.len.toNat < 56) : (h.appendByte b).msg[h.len.toNat] = b := by
  simp [Hce.appendByte_fits b lt]

theorem Hce.appendByte_msg_elsewhere {h : Hce} (b : Byte) {j : Nat} (lt : j < 56) (ne : j ≠ h.len.toNat) :
    (h.appendByte b).msg[j] = h.msg[j] := by
  by_cases room : h.len.toNat < 56
  · simp [Hce.appendByte_fits b room, Vector.getElem_set_ne _ _ ne.symm]
  · rw [Hce.appendByte_full b room]

/-- R29 and R112: the byte that fills the buffer is the one stored at LEN = 55. -/
theorem Hce.appendByte_mfull {h : Hce} (b : Byte) (lt : h.len.toNat < 56) :
    (h.appendByte b).statusWord.getLsbD 4 = true ↔ h.len = 55#6 := by
  have len := Hce.appendByte_len b lt
  rw [Hce.statusWord_mfull, ← BitVec.toNat_inj, ← BitVec.toNat_inj, len, BitVec.toNat_ofNat, BitVec.toNat_ofNat]
  omega

theorem Hce.appendByte_statusWord {h : Hce} (b : Byte) (status : h.statusWord = 0x00000000#32) :
    (h.appendByte b).statusWord = 0x00000100#32 := by
  obtain ⟨busy, done, perr, cerr, len, rnd⟩ := Hce.statusWord_eq_iff.mp (status.trans Hce.reset_statusWord.symm)
  have empty : h.len.toNat = 0 := congrArg BitVec.toNat len
  have one : (h.appendByte b).len = 1#6 :=
    BitVec.eq_of_toNat_eq ((Hce.appendByte_len b (by omega)).trans (congrArg (· + 1) empty))
  have shown : (h.appendByte b).statusWord = ({ Hce.reset with len := 1#6 } : Hce).statusWord :=
    Hce.statusWord_eq_iff.mpr ⟨by simpa using busy, by simpa using done, by simpa using perr, by simpa using cerr, one,
      by simpa using rnd⟩
  exact shown.trans (by decide)

/-- Settles O10: MSG, LEN and STATUS by the lemmas above, the frame by the laws of `appendByte`. -/
theorem appendStoresOneByteUntilTheBufferIsFull : Obligations.AppendStoresOneByteUntilTheBufferIsFull := by
  intro b s
  refine ⟨?_, s.withHce (s.hce.appendByte b), rfl, fun lt => ?_, fun full => ?_, Hce.appendByte_statusWord b, ?_⟩
  · rw [append_bits_eq_encodeCommand]
    exact decode_encode (.append b)
  · exact ⟨Hce.appendByte_len b lt, Hce.appendByte_msg_at_len b lt, fun j h ne => Hce.appendByte_msg_elsewhere b h ne,
      Hce.appendByte_mfull b lt⟩
  · rw [Hce.appendByte_full b (by simp [full]), State.withHce_self]
  · simp

/-! ### A message is loaded, R113 -/

/-- What the APPENDs of the bytes of `m`, in order, make of the HCE (`run_appends`). -/
def Hce.appendBytes (h : Hce) (m : List Byte) : Hce := m.foldl Hce.appendByte h

theorem Hce.appendBytes_cons (h : Hce) (b : Byte) (m : List Byte) : h.appendBytes (b :: m) = (h.appendByte b).appendBytes m := rfl

theorem Hce.appendBytes_len {h : Hce} (m : List Byte) (le : h.len.toNat ≤ 56) :
    (h.appendBytes m).len.toNat = min (h.len.toNat + m.length) 56 := by
  induction m generalizing h with
  | nil => exact (Nat.min_eq_left le).symm
  | cons b m ih =>
    rw [Hce.appendBytes_cons, List.length_cons]
    by_cases room : h.len.toNat < 56
    · have len := Hce.appendByte_len b room
      rw [ih (by omega), len]
      omega
    · rw [Hce.appendByte_full b room, ih le]
      omega

theorem Hce.appendBytes_message {h : Hce} (m : List Byte) (fits : h.len.toNat + m.length ≤ 56) :
    (h.appendBytes m).message = h.message ++ m := by
  induction m generalizing h with
  | nil => exact (List.append_nil _).symm
  | cons b m ih =>
    rw [List.length_cons] at fits
    have room : h.len.toNat < 56 := by omega
    have len := Hce.appendByte_len b room
    rw [Hce.appendBytes_cons, ih (by omega), Hce.appendByte_message b room, List.append_assoc, List.singleton_append]

/-- The bytes of the message are those of MSG below LEN (R23). -/
theorem Hce.msg_getElem?_of_message {h : Hce} {m : List Byte} (loaded : h.message = m) {j : Nat} (lt : j < m.length) :
    h.msg.toList[j]? = some m[j] := by
  subst loaded
  simp [Hce.message]

/-- A scheduled HOST turn whose next action writes a command's word performs the command. -/
theorem step_command {s : State} {v : Word} {c : Command} {rest : List HostAction} {turns : List Turn}
    (legal : decodeCommand v = some c) (hp : s.pending = busWrite 0x00#8 v :: rest) (hs : s.schedule = .host :: turns) :
    step s = exec c.toInstr { s with pending := rest, schedule := turns } :=
  (step_scheduled hs).trans (hostTurn_command legal hp)

theorem run_appends {m : List Byte} {rest : List HostAction} {turns : List Turn} {s : State}
    (hp : s.pending = m.map (fun b => busWrite 0x00#8 (appendWord b)) ++ rest)
    (hs : s.schedule = List.replicate m.length .host ++ turns) :
    Host.Core.run core m.length s = .next { s with hce := s.hce.appendBytes m, pending := rest, schedule := turns } := by
  induction m generalizing s with
  | nil =>
    obtain rfl : s.pending = rest := hp
    obtain rfl : s.schedule = turns := hs
    rfl
  | cons b m ih => exact (run_next (step_command (decodeCommand_append b) hp hs)).trans (ih rfl rfl)

theorem assemble_loadMessage (m : List Byte) : assemble (loadMessage m) =
    busWrite 0x00#8 (encodeCommand .clear) :: m.map fun b => busWrite 0x00#8 (appendWord b) := by
  simp [assemble, loadMessage, HostAsm.expand, show encodeCommand .clear = 0x00000001#32 by decide]

theorem run_loadMessage {m : List Byte} {rest : List HostAction} {turns : List Turn} {s : State}
    (hp : s.pending = assemble (loadMessage m) ++ rest)
    (hs : s.schedule = List.replicate (m.length + 1) .host ++ turns) :
    Host.Core.run core (m.length + 1) s =
      .next { s with hce := s.hce.clearMessage.appendBytes m, pending := rest, schedule := turns } := by
  rw [assemble_loadMessage] at hp
  have cleared := step_command (decodeCommand_encodeCommand .clear) hp hs
  exact (run_next cleared).trans (run_appends rfl rfl)

theorem Hce.clearMessage_appendBytes_len (h : Hce) (m : List Byte) :
    (h.clearMessage.appendBytes m).len.toNat = min m.length 56 := by
  simpa using Hce.appendBytes_len (h := h.clearMessage) m (by simp)

theorem Hce.clearMessage_appendBytes_message (h : Hce) {m : List Byte} (le : m.length ≤ 56) :
    (h.clearMessage.appendBytes m).message = m := by
  simpa using Hce.appendBytes_message (h := h.clearMessage) m (by simpa using le)

/-- Settles O11: the CLEAR empties the message, and each APPEND then puts its byte at the end while there is room. -/
theorem messageIsLoadedByClearAndAppends : Obligations.MessageIsLoadedByClearAndAppends := by
  intro m rest turns s hp hs
  refine ⟨_, run_loadMessage hp hs, rfl, rfl, s.hce.clearMessage_appendBytes_len m, fun short j lt => ?_⟩
  exact Hce.msg_getElem?_of_message (s.hce.clearMessage_appendBytes_message (by omega)) lt

/-! ### What PACK does, R120 -/

theorem exec_pack_busy {s : State} (busy : s.hce.busy = true) : exec .pack s = .next (s.withHce s.hce.setCerr) := if_pos busy

theorem exec_pack_full {s : State} (idle : s.hce.busy = false) (full : ¬ s.hce.len.toNat < 56) :
    exec .pack s = .next (s.withHce s.hce.setPerr) :=
  (if_neg (by simp [idle])).trans (if_neg full)

theorem exec_pack_fits {s : State} (idle : s.hce.busy = false) (fits : s.hce.len.toNat < 56) :
    exec .pack s = .next (s.withHce s.hce.packMessage) :=
  (if_neg (by simp [idle])).trans (if_pos fits)

@[simp] theorem Hce.packMessage_packMessage (h : Hce) : h.packMessage.packMessage = h.packMessage := by
  simp only [Hce.packMessage, Hce.message]

/-- PACK reads no W, so packing again makes the same block. -/
theorem exec_pack_again {s : State} (idle : s.hce.busy = false) (fits : s.hce.len.toNat < 56) :
    exec .pack (s.withHce s.hce.packMessage) = .next (s.withHce s.hce.packMessage) := by
  simpa using exec_pack_fits (s := s.withHce s.hce.packMessage) (by simpa using idle) (by simpa using fits)

/-! ### The bytes of the padded buffer, R121 -/

@[simp] theorem byteOf_zero (q : Nat) : byteOf 0#32 q = 0x00#8 := by
  simp [byteOf]

section
variable {m : List Byte} (short : m.length < 56)
include short

theorem pad_getD {j : Nat} : (pad m).getD j 0x00#8 =
    if lt : j < m.length then m[j] else if j = m.length then 0x80#8 else if j < 56 then 0x00#8
    else if j < 60 then byteOf (BitVec.ofNat 32 (8 * m.length)) (j - 56) else 0x00#8 := by
  rw [List.getD_eq_getElem?_getD, pad_getElem? (by omega)]
  split_ifs <;> rfl

theorem pad_getD_message {j : Nat} (lt : j < m.length) : (pad m).getD j 0x00#8 = m[j] := by
  rw [pad_getD short, dif_pos lt]

theorem pad_getD_terminator : (pad m).getD m.length 0x00#8 = 0x80#8 := by
  rw [pad_getD short, dif_neg (by omega), if_pos rfl]

theorem pad_getD_fill {j : Nat} (gt : m.length < j) (lt : j < 56) : (pad m).getD j 0x00#8 = 0x00#8 := by
  rw [pad_getD short, dif_neg (by omega), if_neg (by omega), if_pos lt]

theorem pad_getD_bitLength {q : Nat} (lt : q < 4) : (pad m).getD (56 + q) 0x00#8 = byteOf (BitVec.ofNat 32 (8 * m.length)) q := by
  rw [pad_getD short, dif_neg (by omega), if_neg (by omega), if_neg (by omega), if_pos (by omega), Nat.add_sub_cancel_left]

theorem pad_getD_tail {j : Nat} (ge : 60 ≤ j) : (pad m).getD j 0x00#8 = 0x00#8 := by
  rw [pad_getD short, dif_neg (by omega), if_neg (by omega), if_neg (by omega), if_neg (by omega)]

/-! ### The words of the padded block, R122 -/

theorem leWord_pad_bitLength : (leWord (pad m) 14).toNat = 8 * m.length := by
  have word : leWord (pad m) 14 = BitVec.ofNat 32 (8 * m.length) :=
    word_ext fun q lt => (byteOf_leWord _ _ _ lt).trans (pad_getD_bitLength short lt)
  rw [word, BitVec.toNat_ofNat]
  omega

theorem leWord_pad_last : leWord (pad m) 15 = 0#32 :=
  word_ext fun q lt => by
    rw [byteOf_leWord _ _ _ lt, pad_getD_tail short (by omega), byteOf_zero]

theorem leWord_pad_fill {k : Nat} (gt : m.length / 4 < k) (lt : k < 14) : leWord (pad m) k = 0#32 :=
  word_ext fun q hq => by
    rw [byteOf_leWord _ _ _ hq, pad_getD_fill short (by omega) (by omega), byteOf_zero]

theorem byteOf_leWord_pad_terminator : byteOf (leWord (pad m) (m.length / 4)) (m.length % 4) = 0x80#8 := by
  rw [byteOf_leWord _ _ _ (by omega), Nat.div_add_mod, pad_getD_terminator short]

theorem byteOf_leWord_pad_above_terminator {q : Nat} (gt : m.length % 4 < q) (lt : q < 4) :
    byteOf (leWord (pad m) (m.length / 4)) q = 0x00#8 := by
  rw [byteOf_leWord _ _ _ lt, pad_getD_fill short (by omega) (by omega)]

end

theorem leWord_toNat (p : List Byte) (k : Nat) : (leWord p k).toNat =
    (p.getD (4 * k + 3) 0#8 ++ p.getD (4 * k + 2) 0#8 ++ p.getD (4 * k + 1) 0#8 ++ p.getD (4 * k) 0#8).toNat := rfl

/-- A word whose bytes above byte `j` are zero has nothing left when byte `j` and those below it are shifted out. -/
theorem ushiftRight_eq_zero_of_byteOf {v : Word} {j : Nat} (above : ∀ q, j < q → q < 4 → byteOf v q = 0x00#8) :
    v >>> (8 * j + 8) = 0#32 := by
  apply BitVec.eq_of_getLsbD_eq
  intro i _
  rw [BitVec.getLsbD_ushiftRight, BitVec.getLsbD_zero]
  by_cases inside : 8 * j + 8 + i < 32
  · have bit := congrArg (BitVec.getLsbD · ((8 * j + 8 + i) % 8)) (above ((8 * j + 8 + i) / 8) (by omega) (by omega))
    simpa only [byteOf_getLsbD, Nat.mod_lt _ (show 8 > 0 by decide), decide_true, Bool.true_and, Nat.div_add_mod,
      BitVec.getLsbD_zero] using bit
  · exact BitVec.getLsbD_of_ge v _ (by omega)

/-! ### PACK of the message in MSG -/

theorem Hce.message_getElem (h : Hce) {j : Nat} (lt : j < h.message.length) (lt' : j < 56) : h.message[j] = h.msg[j] := by
  simp [Hce.message]

section
variable {h : Hce} (fits : h.len.toNat < 56)
include fits

theorem Hce.message_short : h.message.length < 56 :=
  (h.message_length fits.le).trans_lt fits

theorem Hce.pad_message_getD {j : Nat} (lt : j < h.len.toNat) (lt' : j < 56) : (pad h.message).getD j 0x00#8 = h.msg[j] := by
  have lt_message : j < h.message.length := lt.trans_eq (h.message_length fits.le).symm
  rw [pad_getD_message (Hce.message_short fits) lt_message, h.message_getElem lt_message lt']

end

/-- The 64 bytes P of R121 as a vector (`paddedBuffer_toList`). -/
def paddedBuffer (m : List Byte) : Vector Byte 64 := Vector.ofFn fun j => (pad m).getD j.val 0x00#8

@[simp] theorem paddedBuffer_getElem (m : List Byte) {j : Nat} (lt : j < 64) : (paddedBuffer m)[j] = (pad m).getD j 0x00#8 := by
  simp [paddedBuffer]

theorem paddedBuffer_toList {m : List Byte} (short : m.length < 56) : (paddedBuffer m).toList = pad m := by
  have length : (pad m).length = 64 := pad_length (by omega)
  refine List.ext_getElem (by simp [length]) fun j _ lt => ?_
  rw [Vector.getElem_toList, paddedBuffer_getElem, List.getD_eq_getElem _ _ lt]

/-- Settles O12: the three outcomes of PACK, and each clause about P by the part of the buffer it speaks of. -/
theorem packWritesThePaddedBlock : Obligations.PackWritesThePaddedBlock := by
  refine ⟨decode_encode .pack, fun s => ⟨exec_pack_busy, fun idle full => exec_pack_full idle (by simp [full]),
    fun idle fits => ?_⟩⟩
  have short := Hce.message_short fits
  have length := s.hce.message_length fits.le
  have tail : ∀ j (lt : j < 64), 60 ≤ j → (paddedBuffer s.hce.message)[j] = 0x00#8 := fun j lt ge =>
    (paddedBuffer_getElem _ lt).trans (pad_getD_tail short ge)
  refine ⟨paddedBuffer s.hce.message, blockOf (pad s.hce.message), fun j lt lt' => ?_, ?_, fun j lt gt => ?_, ?_,
    tail 60 (by omega) le_rfl, tail 61 (by omega) (by omega), tail 62 (by omega) (by omega), tail 63 (by omega) (by omega),
    fun k lt => ?_, exec_pack_fits idle fits, ?_⟩
  · rw [paddedBuffer_getElem, Hce.pad_message_getD fits lt lt']
  · rw [Vector.getElem?_eq_getElem (by omega), paddedBuffer_getElem, ← length, pad_getD_terminator short]
  · rw [paddedBuffer_getElem, pad_getD_fill short (by omega) lt]
  · simp only [paddedBuffer_getElem]
    rw [← length, ← leWord_pad_bitLength short]
    rfl
  · simp only [paddedBuffer_getElem, blockOf_getElem, leWord_toNat]
  · exact exec_pack_again idle fits

/-- Settles O13: word k of the block is `leWord (pad MSG) k`, and each clause is the lemma on the words in its range. -/
theorem packedBlockHasMessageTerminatorAndLength : Obligations.PackedBlockHasMessageTerminatorAndLength := by
  intro s idle fits
  have short := Hce.message_short fits
  have length := s.hce.message_length fits.le
  refine ⟨_, exec_pack_fits idle fits, ?_⟩
  simp only [State.withHce_hce, Hce.packMessage_w, blockOf_getElem, ← length]
  refine ⟨leWord_pad_bitLength short, leWord_pad_last short, ⟨_, by omega, rfl, byteOf_leWord_pad_terminator short, ?_⟩,
    fun k lt gt => leWord_pad_fill short gt lt, fun k lt before => ?_⟩
  · exact ushiftRight_eq_zero_of_byteOf fun q gt lt => byteOf_leWord_pad_above_terminator short gt lt
  · have byte : ∀ j (lt : j < 4 * k + 4), (pad s.hce.message).getD j 0x00#8 = s.hce.msg[j] := fun j lt =>
      Hce.pad_message_getD fits (by omega) (by omega)
    simp (disch := omega) only [leWord_toNat, byte]

end Sys2Proof.Machine
end

section
/-!
PROOFS of 41_compression.md: a run is followed by `Hce.AfterRounds`, the HCE after n rounds over a block; every step keeps a run on
that track (O42), and after 64 rounds, however interleaved, RESULT is `compress` of the block (O20, O21). The tables (O14, O15), the
vectors (O16), START (O17), one round (O18, O19) and the end of a run (O37).
-/

namespace Sys2Proof.Machine

/-! ### START, R150 -/

theorem exec_start_rejected {s : State} (hc : s.hce.busy = true ∨ s.hce.perr = true) :
    exec .start s = .next (s.withHce s.hce.setCerr) := if_pos ((Bool.or_eq_true _ _).mpr hc)

theorem exec_start_accepted {s : State} (idle : s.hce.busy = false) (packed : s.hce.perr = false) :
    exec .start s = .next (s.withHce s.hce.beginRun) := if_neg (by simp [idle, packed])

/-- Settles O17: START is its own encoding's instruction, and each outcome is the lemma above. -/
theorem startBeginsARunUnlessBusyOrPackFailed : Obligations.StartBeginsARunUnlessBusyOrPackFailed :=
  ⟨decode_encode .start, fun _ => ⟨exec_start_rejected, exec_start_accepted⟩⟩

/-! ### One round, R160 and R161 -/

theorem Hce.roundStep_rnd_toNat (h : Hce) (i : Fin 64) : (h.roundStep i).rnd.toNat = i.val + 1 := by
  rw [Hce.roundStep_rnd, BitVec.toNat_ofNat]
  omega

theorem Hce.roundStep_before_last {h : Hce} {i : Fin 64} (before : i.val ≠ 63) :
    h.roundStep i = { h with work := roundOf i h.work h.w, rnd := BitVec.ofNat 7 (i.val + 1) } := if_neg before

theorem Hce.roundStep_last (h : Hce) :
    h.roundStep 63 = { h with
      work := roundOf 63 h.work h.w, rnd := 64#7, result := (roundOf 63 h.work h.w).a + IV.a, busy := false, done := true } := rfl

/-- The ENGINE's round 63 is the one that ends a run. -/
theorem Hce.roundStep_busy_iff {h : Hce} (busy : h.busy = true) (i : Fin 64) : (h.roundStep i).busy = true ↔ i.val ≠ 63 := by
  simp [Hce.roundStep_busy, busy]

/-! ### A run in progress and a completed run, R141 and R162 -/

/-- A run over the block `w` is in progress, and `n` of its rounds are done. -/
structure Hce.AfterRounds (h : Hce) (w : Vector Word 16) (n : Nat) : Prop where
  busy : h.busy = true
  block : h.w = w
  rnd : h.rnd.toNat = n
  work : h.work = rounds w n

/-- A run over the block `w` is complete (R161). -/
structure Hce.Completed (h : Hce) (w : Vector Word 16) : Prop where
  result : h.result = compress w
  done : h.done = true
  idle : h.busy = false
  rnd : h.rnd = 64#7
  block : h.w = w

theorem Hce.beginRun_afterRounds (h : Hce) : h.beginRun.AfterRounds h.w 0 := ⟨rfl, rfl, rfl, rfl⟩

theorem Hce.OnTrack.afterRounds {h : Hce} (track : h.OnTrack) (busy : h.busy = true) : h.AfterRounds h.w h.rnd.toNat :=
  ⟨busy, rfl, rfl, track busy⟩

section
variable {h : Hce} {w : Vector Word 16} {n : Nat}

theorem Hce.AfterRounds.onTrack (run : h.AfterRounds w n) : h.OnTrack := fun _ => by
  rw [run.work, run.block, run.rnd]

theorem Hce.AfterRounds.roundOf_work (run : h.AfterRounds w n) (lt : n < 64) :
    roundOf ⟨n, lt⟩ h.work h.w = rounds w (n + 1) := by
  rw [rounds_succ w lt, run.work, run.block]

theorem Hce.AfterRounds.roundStep (run : h.AfterRounds w n) (lt : n < 63) :
    (h.roundStep ⟨n, by omega⟩).AfterRounds w (n + 1) where
  busy := (Hce.roundStep_busy_iff run.busy _).mpr (Nat.ne_of_lt lt)
  block := (h.roundStep_w _).trans run.block
  rnd := h.roundStep_rnd_toNat _
  work := (h.roundStep_work _).trans (run.roundOf_work _)

theorem Hce.AfterRounds.roundStep_completed (run : h.AfterRounds w 63) : (h.roundStep 63).Completed w := by
  have work : roundOf 63 h.work h.w = rounds w 64 := run.roundOf_work (by decide)
  rw [Hce.roundStep_last, work]
  exact ⟨rfl, rfl, rfl, rfl, run.block⟩

/-- No update of the HOST's touches a run in progress. -/
theorem HceUpdate.keeps_afterRounds {h' : Hce} (u : HceUpdate h h') (run : h.AfterRounds w n) : h'.AfterRounds w n := by
  obtain ⟨block, work, rnd, -, busy, -⟩ := u.keeps_run run.busy
  exact ⟨busy, block.trans run.block, (congrArg BitVec.toNat rnd).trans run.rnd, work.trans run.work⟩

end

/-! ### Every step keeps a run on track -/

theorem HceUpdate.keeps_onTrack {h h' : Hce} (u : HceUpdate h h') (track : h.OnTrack) : h'.OnTrack := by
  cases busy : h.busy with
  | true => exact (u.keeps_afterRounds (track.afterRounds busy)).onTrack
  | false =>
    cases u with
    | start => exact h.beginRun_afterRounds.onTrack
    | same | cerr | clear | append | pack | packFails | writeW => simp [Hce.OnTrack, busy]

theorem Hce.roundStep_keeps_onTrack {h : Hce} {i : Fin 64} (busy : h.busy = true) (rnd : h.rnd.toNat = i.val) (track : h.OnTrack) :
    (h.roundStep i).OnTrack := by
  intro running
  have before : i.val ≠ 63 := (Hce.roundStep_busy_iff busy i).mp running
  have run : h.AfterRounds h.w i.val := rnd ▸ track.afterRounds busy
  exact (run.roundStep (by omega)).onTrack running

/-- Settles O42: reset is on track, and each update and each round stays on it. -/
theorem everyStepKeepsARunOnTrack : Obligations.EveryStepKeepsARunOnTrack := by
  intro s t track h
  obtain ⟨-, reset⟩ | update | ⟨-, busy, i, rnd, round⟩ := step_hce_cases h
  · rw [reset]; exact Hce.reset_onTrack
  · exact update.keeps_onTrack track
  · rw [round]; exact Hce.roundStep_keeps_onTrack busy rnd track

/-! ### Runs under any interleaving, R162 -/

theorem hostTurn_schedule {s t : State} (h : hostTurn s = .next t) : t.schedule = s.schedule := by
  obtain ⟨-, rfl⟩ | ⟨a, rest, i, -, -, hx⟩ | ⟨rest, -, -, schedule, -⟩ := hostTurn_cases h
  · rfl
  · obtain ⟨-, schedule, -⟩ := exec_update hx
    exact schedule
  · exact schedule

section
variable {s t : State} {w : Vector Word 16} {n : Nat}

theorem Hce.AfterRounds.engineRound_eq (run : s.hce.AfterRounds w n) (lt : n < 64) :
    engineRound s = .next (s.withHce (s.hce.roundStep ⟨n, lt⟩)) := engineRound_busy run.busy ⟨n, lt⟩ run.rnd

theorem Hce.AfterRounds.step_engine (run : s.hce.AfterRounds w n) (lt : n < 64) {turns : List Turn}
    (scheduled : s.schedule = .engine :: turns) :
    step s = .next { s with hce := s.hce.roundStep ⟨n, lt⟩, schedule := turns } :=
  (step_scheduled scheduled).trans (Hce.AfterRounds.engineRound_eq (s := { s with schedule := turns }) run lt)

/-- A turn other than a reset, before round 63: one of the ENGINE's does a round, one of the HOST's leaves the run. -/
theorem step_afterRounds {u : Turn} {turns : List Turn} (run : s.hce.AfterRounds w n) (scheduled : s.schedule = u :: turns)
    (not_reset : u ≠ .reset) (room : n + [u].count .engine ≤ 63) (h : step s = .next t) :
    t.hce.AfterRounds w (n + [u].count .engine) ∧ t.schedule = turns := by
  cases u with
  | host =>
    rw [step_scheduled scheduled] at h
    exact ⟨(hostTurn_update h).keeps_afterRounds run, hostTurn_schedule h⟩
  | engine =>
    have lt : n < 63 := room
    obtain rfl := Host.Outcome.next.inj ((run.step_engine (by omega) scheduled).symm.trans h)
    exact ⟨run.roundStep lt, rfl⟩
  | reset => exact absurd rfl not_reset

/-- Any order of turns without a reset that holds ENGINE turns for rounds before the last only: each ENGINE turn does one round. -/
theorem run_afterRounds {turns rest : List Turn} (run : s.hce.AfterRounds w n) (scheduled : s.schedule = turns ++ rest)
    (no_reset : Turn.reset ∉ turns) (room : n + turns.count .engine ≤ 63) (h : Host.Core.run core turns.length s = .next t) :
    t.hce.AfterRounds w (n + turns.count .engine) ∧ t.schedule = rest := by
  induction turns generalizing s n with
  | nil =>
    obtain rfl : s = t := Host.Outcome.next.inj h
    exact ⟨run, scheduled⟩
  | cons u turns ih =>
    obtain ⟨v, first, others⟩ := run_next_inv h
    have count : (u :: turns).count .engine = [u].count .engine + turns.count .engine := by
      rw [← List.count_append, List.singleton_append]
    rw [count, ← Nat.add_assoc] at room ⊢
    obtain ⟨not_reset, no_reset⟩ := List.ne_and_not_mem_of_not_mem_cons no_reset
    obtain ⟨run, schedule⟩ := step_afterRounds run scheduled not_reset.symm (by omega) first
    exact ih run schedule no_reset room others

end

/-- Settles O21: the turns before the last do 63 rounds (`run_afterRounds`), and the ENGINE's last turn the 64th. -/
theorem runComputesTheReferenceFunctionUnderAnyInterleaving : Obligations.RunComputesTheReferenceFunctionUnderAnyInterleaving := by
  intro s0 s t turns rest idle packed started scheduled no_reset count h
  obtain rfl := Host.Outcome.next.inj ((exec_start_accepted idle packed).symm.trans started)
  obtain ⟨u, before, last⟩ := run_cut h
  obtain ⟨run, schedule⟩ := run_afterRounds s0.hce.beginRun_afterRounds scheduled no_reset (by omega) before
  obtain ⟨t', stepped, ended⟩ := run_next_inv last
  obtain rfl : t' = t := Host.Outcome.next.inj ended
  rw [Nat.zero_add, count] at run
  obtain rfl := Host.Outcome.next.inj ((run.step_engine (by decide) schedule).symm.trans stepped)
  obtain ⟨result, done, idle, rnd, block⟩ := run.roundStep_completed
  exact ⟨result, done, idle, rnd, block, rfl⟩

/-! ### Runs of ENGINE steps alone, R163 -/

theorem engineRounds_succ {n : Nat} {s t : State} (first : engineRound s = .next t) :
    engineRounds (n + 1) s = engineRounds n t := by
  rw [engineRounds, first]

theorem engineRounds_snoc {n : Nat} {s t : State} (before : engineRounds n s = .next t) :
    engineRounds (n + 1) s = engineRound t := by
  induction n generalizing s with
  | zero =>
    obtain rfl : s = t := Host.Outcome.next.inj before
    rw [engineRounds]
    cases engineRound s <;> rfl
  | succ n ih =>
    cases first : engineRound s with
    | next u => rw [engineRounds_succ first] at before ⊢; exact ih before
    | fault r => simp [engineRounds, first] at before
    | refused r => simp [engineRounds, first] at before

theorem engineRounds_afterRounds {s : State} {w : Vector Word 16} {n : Nat} (start : s.hce.AfterRounds w 0) (le : n ≤ 63) :
    ∃ t, engineRounds n s = .next t ∧ t.hce.AfterRounds w n := by
  induction n with
  | zero => exact ⟨s, rfl, start⟩
  | succ n ih =>
    obtain ⟨t, before, run⟩ := ih (by omega)
    exact ⟨_, (engineRounds_snoc before).trans (run.engineRound_eq (by omega)), run.roundStep le⟩

/-- Settles O20: n < 64 rounds leave the run in progress (`engineRounds_afterRounds`), and the round after 63 completes it. -/
theorem runTakesExactlySixtyFourEngineSteps : Obligations.RunTakesExactlySixtyFourEngineSteps := by
  intro s0 s idle packed started
  obtain rfl := Host.Outcome.next.inj ((exec_start_accepted idle packed).symm.trans started)
  have run_after : ∀ n ≤ 63, ∃ t, engineRounds n (s0.withHce s0.hce.beginRun) = .next t ∧ t.hce.AfterRounds s0.hce.w n :=
    fun _ le => engineRounds_afterRounds s0.hce.beginRun_afterRounds le
  refine ⟨fun n lt => ?_, ?_⟩
  · obtain ⟨t, before, run⟩ := run_after n (Nat.le_of_lt_succ lt)
    exact ⟨t, before, run.busy, run.rnd⟩
  · obtain ⟨t, before, run⟩ := run_after 63 le_rfl
    obtain ⟨result, done, idle, rnd, -⟩ := run.roundStep_completed
    exact ⟨_, (engineRounds_snoc before).trans (run.engineRound_eq (by decide)), idle, done, rnd, result⟩

/-! ### The last round -/

/-- Settles O19: with RND = 63 the ENGINE's step is round 63, whose update `Hce.roundStep_last` writes out. -/
theorem lastRoundCompletesTheRun : Obligations.LastRoundCompletesTheRun := by
  intro s busy rnd
  refine ⟨_, engineRound_busy busy 63 (by rw [rnd]; rfl), ?_⟩
  rw [Hce.roundStep_last]
  exact ⟨rfl, rfl, rfl, rfl, rfl, rfl, rfl, rfl, rfl, rfl, rfl, rfl, rfl⟩

/-- Settles O37: no update of the HOST's ends a run, and of the ENGINE's rounds only the last one does. -/
theorem runEndsOnlyByItsLastRoundOrReset : Obligations.RunEndsOnlyByItsLastRoundOrReset := by
  intro s t h busy ended
  obtain ⟨reset, -⟩ | update | ⟨turn, -, i, rnd, round⟩ := step_hce_cases h
  · exact .inl reset
  · obtain ⟨-, -, -, -, still_busy, -⟩ := update.keeps_run busy
    simp [ended] at still_busy
  · have last : i = 63 := by
      by_contra ne
      rw [round, (Hce.roundStep_busy_iff busy i).mpr (Fin.val_ne_of_ne ne)] at ended
      cases ended
    subst last
    rw [round, Hce.roundStep_last]
    exact .inr ⟨BitVec.eq_of_toNat_eq rnd, rfl, rfl, turn⟩

/-! ### The tables and the schedule, R142 and R145 -/

/-- Settles O14: the table of 64 against the rows of four. -/
theorem shiftAmountsRepeatWithinEachGroup : Obligations.ShiftAmountsRepeatWithinEachGroup := by
  unfold Obligations.ShiftAmountsRepeatWithinEachGroup
  decide

theorem g_val (i : Fin 64) : (g i).val =
    if i.val < 16 then i.val else if i.val < 32 then (5 * i.val + 1) % 16
    else if i.val < 48 then (3 * i.val + 5) % 16 else (7 * i.val) % 16 := by
  unfold g
  split_ifs with first
  · exact Nat.mod_eq_of_lt first
  all_goals rfl

theorem g_reads_each_word_once (q : Fin 4) (k : Fin 16) :
    ((List.finRange 64).filter fun i => i.val / 16 = q.val ∧ g i = k).length = 1 := by
  revert q k
  decide

theorem engineRound_keeps_w {s t : State} (h : engineRound s = .next t) : t.hce.w = s.hce.w := by
  obtain ⟨-, rfl⟩ | ⟨-, lt, rfl⟩ := engineRound_cases h
  · rfl
  · exact s.hce.roundStep_w _

/-- Settles O15: the three claims are the lemmas above. -/
theorem scheduleReadsEveryBlockWordOnceInEachGroup : Obligations.ScheduleReadsEveryBlockWordOnceInEachGroup :=
  ⟨g_val, g_reads_each_word_once, fun _ _ => engineRound_keeps_w⟩

/-! ### A round written out, R12, R146 and R147 -/

theorem S_lt (i : Fin 64) : S i < 32 := by
  obtain ⟨-, -, le⟩ := shiftAmountsRepeatWithinEachGroup i
  omega

theorem rotl32_eq_rotateLeft (v : Word) {n : Nat} (lt : n < 32) : rotl32 v n = v.rotateLeft n := by
  rw [rotl32, BitVec.rotateLeft_def, Nat.mod_eq_of_lt lt]

theorem roundSum_toNat (i : Fin 64) (q : Working) (w : Vector Word 16) : (roundSum i q w).toNat =
    ((fn i q.b q.c q.d).toNat + q.a.toNat + (K i).toNat + (w[(g i).val]).toNat) % 2 ^ 32 := by
  simp [roundSum, BitVec.toNat_add]

/-- Settles O18: f is `fn`, x is `roundSum`, and the rotate of R12 is the library's. -/
theorem roundRotatesAndAdds : Obligations.RoundRotatesAndAdds := by
  intro s i busy rnd before
  refine ⟨fn i s.hce.work.b s.hce.work.c s.hce.work.d, roundSum i s.hce.work s.hce.w, rfl, roundSum_toNat i _ _, ?_⟩
  rw [engineRound_busy busy i rnd, Hce.roundStep_before_last before, roundOf, rotl32_eq_rotateLeft _ (S_lt i)]
  rfl

/-! ### Vectors -/

set_option maxRecDepth 2000 in
/-- Settles O16: `compress` evaluated on each block; its 64 nested rounds exceed the default recursion depth. -/
theorem goldenVectorsAreReproduced : Obligations.GoldenVectorsAreReproduced := by
  unfold Obligations.GoldenVectorsAreReproduced
  decide

end Sys2Proof.Machine
end

section
/-!
PROOFS of 42_bus_access.md: which accesses end in AccessError (O6) and that a host without them meets no fault (O44), the writes and
reads of the registers (O22, O24, O25), and the host's procedure of R193 under every schedule without a reset (O45).
-/

namespace Sys2Proof.Machine

/-! ### Every instruction completes -/

theorem exec_command_completes (c : Command) (s : State) : ∃ t, exec c.toInstr s = .next t := by
  cases c with
  | nop | clear | append => exact ⟨_, rfl⟩
  | pack =>
    cases busy : s.hce.busy with
    | true => exact ⟨_, exec_pack_busy busy⟩
    | false =>
      by_cases fits : s.hce.len.toNat < 56
      · exact ⟨_, exec_pack_fits busy fits⟩
      · exact ⟨_, exec_pack_full busy fits⟩
  | start =>
    by_cases rejected : s.hce.busy = true ∨ s.hce.perr = true
    · exact ⟨_, exec_start_rejected rejected⟩
    · obtain ⟨idle, packed⟩ := not_or.mp rejected
      exact ⟨_, exec_start_accepted (Bool.eq_false_of_not_eq_true idle) (Bool.eq_false_of_not_eq_true packed)⟩

theorem exec_completes (i : Instr) (s : State) : ∃ t, exec i s = .next t := by
  cases i with
  | nop => exact exec_command_completes .nop s
  | clear => exact exec_command_completes .clear s
  | append b => exact exec_command_completes (.append b) s
  | pack => exact exec_command_completes .pack s
  | start => exact exec_command_completes .start s
  | wrCmd v =>
    obtain ⟨c, -, performed⟩ | ⟨-, rejected⟩ := execWrCmd_cases v s
    · obtain ⟨t, completes⟩ := exec_command_completes c s
      exact ⟨t, performed.trans completes⟩
    · exact ⟨_, rejected⟩
  | rdStatus | rdResult | rdW => exact ⟨_, rfl⟩
  | wrW k v =>
    cases busy : s.hce.busy with
    | true => exact ⟨_, exec_wrW_busy busy k v⟩
    | false => exact ⟨_, exec_wrW_idle busy k v⟩

/-! ### AccessError, R199 -/

theorem decodeBus_eq_none_iff {d : BitVec 9} {data : Word} :
    decodeBus d data = none ↔ ∀ r ∈ busRows, r.hit d = false := by
  refine ⟨fun h => ?_, fun no_row => decodeBus_of_no_row no_row data⟩
  simp only [busRows, List.forall_mem_cons]
  unfold decodeBus at h
  split_ifs at h
  simp_all

/-- R199's list of offsets and directions is what the rows of R89 leave over. -/
theorem no_busRow_hit_iff : ∀ (write : Bool) (off : BitVec 8), (∀ r ∈ busRows, r.hit (descriptor write off) = false) ↔
    (off.extractLsb' 0 2 ≠ 0#2 ∨ (write = false ∧ off = 0x00#8) ∨ (write = true ∧ off = 0x04#8) ∨
      (write = true ∧ off = 0x08#8) ∨ (0x0C ≤ off.toNat ∧ off.toNat ≤ 0x3F) ∨ 0x80 ≤ off.toNat) := by
  decide

theorem decodeAccess_of_width {a : Access} (width : a.width ≠ .bits 32) : decodeAccess a = .error (.accessError a.off) :=
  if_neg (by simpa [Access.width32] using width)

theorem performAccess_eq_accessError_iff {a : Access} {s : State} : performAccess a s = .fault (.accessError a.off) ↔
    a.width ≠ .bits 32 ∨ decodeBus (descriptor a.write a.off) a.data = none := by
  by_cases wide : a.width = .bits 32
  · obtain ⟨write, width, off, data⟩ := a
    obtain rfl : width = .bits 32 := wide
    cases row : decodeBus (descriptor write off) data with
    | none => simp [performAccess_of_decodeBus_none row s]
    | some i =>
      obtain ⟨t, completes⟩ := exec_completes i s
      simp [performAccess_of_decodeBus row s, completes]
  · simp [performAccess_error (decodeAccess_of_width wide) s, wide]

/-- Settles O6: an access is decoded iff it is 32 bits wide and hits a row, and a decoded access completes. -/
theorem accessErrorForExactlyTheListedAccesses : Obligations.AccessErrorForExactlyTheListedAccesses := by
  intro a s
  rw [performAccess_eq_accessError_iff, decodeBus_eq_none_iff, no_busRow_hit_iff]

/-! ### A host whose accesses are well formed -/

theorem Access.wellFormed_iff {a : Access} : a.wellFormed = true ↔
    a.width = .bits 32 ∧ a.off.extractLsb' 0 2 = 0#2 ∧
      ((a.write = true ∧ a.off = 0x00#8) ∨ (a.write = false ∧ (a.off = 0x04#8 ∨ a.off = 0x08#8)) ∨
        (0x40 ≤ a.off.toNat ∧ a.off.toNat ≤ 0x7F)) := by
  cases write : a.write <;>
    simp [Access.wellFormed, Access.width32, Access.aligned, Access.mapped, write, and_assoc, or_assoc]

theorem performAccess_of_wellFormed {a : Access} (wf : a.wellFormed = true) (s : State) : ∃ t, performAccess a s = .next t := by
  obtain ⟨i, -, performed⟩ | ⟨-, -, fault⟩ := performAccess_cases a s
  · obtain ⟨t, completes⟩ := exec_completes i s
    exact ⟨t, performed.trans completes⟩
  · obtain ⟨width, aligned, mapped⟩ := Access.wellFormed_iff.mp wf
    have listed := (accessErrorForExactlyTheListedAccesses a s).mp fault
    -- R52's map and R199's list exclude each other.
    grind

/-- A HOST turn takes actions off the front of `pending`, if any. -/
theorem hostTurn_pending {s t : State} (h : hostTurn s = .next t) : t.pending <:+ s.pending := by
  obtain ⟨-, rfl⟩ | ⟨a, rest, i, hp, -, hx⟩ | ⟨rest, hp, -, -, -, left⟩ := hostTurn_cases h
  · exact List.suffix_refl _
  · obtain ⟨left, -⟩ := exec_update hx
    rw [left, hp]
    exact List.suffix_cons _ _
  · rw [left, hp]
    split
    · exact List.suffix_refl _
    · exact List.suffix_cons _ _

theorem hostTurn_of_wellFormed {s : State} (wf : s.accessesWellFormed) : ∃ t, hostTurn s = .next t := by
  cases hp : s.pending with
  | nil => exact ⟨s, hostTurn_done hp⟩
  | cons x rest =>
    cases x with
    | access a =>
      obtain ⟨t, performed⟩ := performAccess_of_wellFormed (wf (.access a) (by simp [hp])) { s with pending := rest }
      exact ⟨t, by rw [← performed, hostTurn, hp]⟩
    | poll => exact ⟨_, hostTurn_poll hp⟩

/-- R33, I1: while BUSY = 1 the ENGINE has a round to perform. -/
theorem engineRound_of_I1 {s : State} (i1 : s.hce.I1) : ∃ h, engineRound s = .next (s.withHce h) := by
  cases busy : s.hce.busy with
  | false => exact ⟨s.hce, engineRound_idle busy⟩
  | true => exact ⟨_, engineRound_busy busy ⟨s.hce.rnd.toNat, Nat.lt_succ_of_le (i1 busy)⟩ rfl⟩

theorem takeTurn_of_wellFormed {s : State} (u : Turn) (i1 : s.hce.I1) (wf : s.accessesWellFormed) :
    ∃ t, takeTurn u s = .next t ∧ t.accessesWellFormed := by
  cases u with
  | host =>
    obtain ⟨t, turn⟩ := hostTurn_of_wellFormed wf
    exact ⟨t, turn, fun x left => wf x ((hostTurn_pending turn).subset left)⟩
  | engine =>
    obtain ⟨h, turn⟩ := engineRound_of_I1 i1
    exact ⟨_, turn, wf⟩
  | reset => exact ⟨_, rfl, wf⟩

/-- Settles O44: of the invariants I1 is what the ENGINE's turn needs; the HOST's needs accesses that O6 does not list. -/
theorem wellFormedAccessesNeverFault : Obligations.WellFormedAccessesNeverFault := by
  intro s inv wf
  obtain ⟨i1, -⟩ := inv
  obtain ⟨u, turns, -, turn⟩ | ⟨-, turn⟩ := step_turn s
  · rw [turn]
    exact takeTurn_of_wellFormed (s := { s with schedule := turns }) u i1 wf
  · rw [turn]
    exact takeTurn_of_wellFormed _ i1 wf

/-! ### WR_CMD, R190 -/

theorem decodeCommand_of_masked {v : Word} (masked : v &&& 0xFFFF00FF#32 = 0x00000002#32) :
    decodeCommand v = some (.append (v.extractLsb' 8 8)) :=
  decodeCommand_eq_some_iff.mpr (eq_cmdWord_of_rowAppend_hit (decide_eq_true masked))

theorem decodeCommand_eq_none {v : Word} (nop : v ≠ 0x00000000#32) (clear : v ≠ 0x00000001#32)
    (append : v &&& 0xFFFF00FF#32 ≠ 0x00000002#32) (pack : v ≠ 0x00000003#32) (start : v ≠ 0x00000004#32) :
    decodeCommand v = none := by
  have no_append : rowAppend.hit v = false := decide_eq_false append
  rw [decodeCommand_eq_none_iff]
  simp [cmdRows, rowNop_hit, rowClear_hit, rowPack_hit, rowStart_hit, *]

/-- Settles O22: each word by what it decodes to, and a write of another width is not decoded. -/
theorem commandWritePerformsItsCommand : Obligations.CommandWritePerformsItsCommand := by
  refine ⟨rfl, fun width v s narrow => performAccess_error (decodeAccess_of_width narrow) s,
    fun v s => ⟨exec_completes _ s, ?_, ?_, ?_, ?_, ?_, ?_⟩⟩
  · rintro rfl; exact exec_wrCmd_legal (decodeCommand_encodeCommand .nop) s
  · rintro rfl; exact exec_wrCmd_legal (decodeCommand_encodeCommand .clear) s
  · intro masked; exact exec_wrCmd_legal (decodeCommand_of_masked masked) s
  · rintro rfl; exact exec_wrCmd_legal (decodeCommand_encodeCommand .pack) s
  · rintro rfl; exact exec_wrCmd_legal (decodeCommand_encodeCommand .start) s
  · intro nop clear append pack start
    exact exec_wrCmd_illegal (decodeCommand_eq_none nop clear append pack start) s

/-! ### Reads of RESULT and W, and writes of W, R192, R194 and R195 -/

/-- Settles O24: both reads are accepted in every state and return the register as it stands. -/
theorem resultAndBlockReadsReturnTheRegister : Obligations.ResultAndBlockReadsReturnTheRegister :=
  fun _ => ⟨rfl, fun _ _ => rfl⟩

theorem Hce.writeW_getElem (h : Hce) (k : BitVec 4) (v : Word) {j : Nat} (lt : j < 16) :
    (h.writeW k v).w[j] = if j = k.toNat then v else h.w[j] := by
  simp only [Hce.writeW_w, Vector.getElem_set, eq_comm]

/-- Settles O25: the rejected and the performed write, and the block after the latter. -/
theorem blockWriteIsPerformedOnlyWhileIdle : Obligations.BlockWriteIsPerformedOnlyWhileIdle :=
  fun k v s => ⟨fun busy => exec_wrW_busy busy k v,
    fun idle => ⟨_, exec_wrW_idle idle k v, fun _ => s.hce.writeW_getElem k v⟩⟩

/-! ### Runs without a reset -/

/-- Some number of steps leads from `s` to `t`. -/
def Reaches (s t : State) : Prop := ∃ n, Host.Core.run core n s = .next t

theorem Reaches.refl (s : State) : Reaches s s := ⟨0, rfl⟩

theorem Reaches.trans {s t u : State} (first : Reaches s t) (second : Reaches t u) : Reaches s u := by
  obtain ⟨n, first⟩ := first
  obtain ⟨m, second⟩ := second
  exact ⟨n + m, run_join first second⟩

theorem Reaches.head {s t u : State} (first : step s = .next t) (rest : Reaches t u) : Reaches s u := by
  obtain ⟨n, rest⟩ := rest
  exact ⟨n + 1, (run_next first).trans rest⟩

theorem Reaches.of_step {s t : State} (h : step s = .next t) : Reaches s t := .head h (.refl t)

/-- The HCE is `h`, the host has the actions `todo` left, and no reset is scheduled; the turns that are, and the words read so far,
are left open. -/
structure State.At (s : State) (h : Hce) (todo : List HostAction) : Prop where
  hce : s.hce = h
  pending : s.pending = todo
  resetFree : s.resetFree

section
variable {s : State} {h : Hce} {todo : List HostAction} {w : Vector Word 16} {n : Nat}

theorem State.At.withSchedule (here : s.At h todo) {u : Turn} {turns : List Turn} (scheduled : s.schedule = u :: turns) :
    State.At { s with schedule := turns } h todo :=
  ⟨here.hce, here.pending, fun reset => here.resetFree (scheduled ▸ List.mem_cons_of_mem u reset)⟩

theorem State.At.head_ne_reset (here : s.At h todo) {u : Turn} {turns : List Turn} (scheduled : s.schedule = u :: turns) :
    u ≠ .reset := by
  rintro rfl
  exact here.resetFree (scheduled ▸ List.mem_cons_self)

/-- While the HCE is idle the ENGINE's turns pass without effect, and the HOST's comes, at the latest by default. -/
theorem State.At.reaches_hostTurn (here : s.At h todo) (idle : h.busy = false) :
    ∃ u, u.At h todo ∧ ∀ t, hostTurn u = .next t → Reaches s t := by
  induction hs : s.schedule generalizing s with
  | nil =>
    have turn : step s = hostTurn s := by
      rw [step_default hs, defaultTurn_idle (here.hce ▸ idle)]
      rfl
    exact ⟨s, here, fun t h => .of_step (turn.trans h)⟩
  | cons u turns ih =>
    have later := here.withSchedule hs
    cases u with
    | host => exact ⟨_, later, fun t h => .of_step ((step_scheduled hs).trans h)⟩
    | engine =>
      have passes : step s = .next { s with schedule := turns } :=
        (step_scheduled hs).trans (engineRound_idle (later.hce ▸ idle))
      obtain ⟨u, at_u, reaches⟩ := ih later rfl
      exact ⟨u, at_u, fun t h => .head passes (reaches t h)⟩
    | reset => exact absurd rfl (here.head_ne_reset hs)

/-- An idle HCE comes to perform the command that the host writes next. -/
theorem State.At.reaches_command {v : Word} {c : Command} {h' : Hce} (here : s.At h (busWrite 0x00#8 v :: todo))
    (idle : h.busy = false) (legal : decodeCommand v = some c)
    (performed : ∀ u : State, u.hce = h → exec c.toInstr u = .next (u.withHce h')) : ∃ t, Reaches s t ∧ t.At h' todo := by
  obtain ⟨u, at_u, reaches⟩ := here.reaches_hostTurn idle
  exact ⟨_, reaches _ ((hostTurn_command legal at_u.pending).trans (performed _ at_u.hce)), rfl, rfl, at_u.resetFree⟩

/-! ### The message is loaded, packed and its run begun -/

@[simp] theorem Hce.appendBytes_busy (h : Hce) (m : List Byte) : (h.appendBytes m).busy = h.busy := by
  induction m generalizing h with
  | nil => rfl
  | cons b m ih => rw [Hce.appendBytes_cons, ih, Hce.appendByte_busy]

@[simp] theorem Hce.appendBytes_perr (h : Hce) (m : List Byte) : (h.appendBytes m).perr = h.perr := by
  induction m generalizing h with
  | nil => rfl
  | cons b m ih => rw [Hce.appendBytes_cons, ih, Hce.appendByte_perr]

theorem State.At.reaches_appends {m : List Byte} (here : s.At h (m.map (fun b => busWrite 0x00#8 (appendWord b)) ++ todo))
    (idle : h.busy = false) : ∃ t, Reaches s t ∧ t.At (h.appendBytes m) todo := by
  induction m generalizing s h with
  | nil => exact ⟨s, .refl s, here⟩
  | cons b m ih =>
    obtain ⟨t, first, at_t⟩ := here.reaches_command (h' := h.appendByte b) idle (decodeCommand_append b) (by rintro _ rfl; rfl)
    obtain ⟨u, others, at_u⟩ := ih at_t (by simpa using idle)
    exact ⟨u, first.trans others, at_u⟩

theorem State.At.reaches_loaded {m : List Byte} (here : s.At h (assemble (loadMessage m) ++ todo)) (idle : h.busy = false) :
    ∃ t, Reaches s t ∧ t.At (h.clearMessage.appendBytes m) todo := by
  rw [assemble_loadMessage] at here
  obtain ⟨t, first, at_t⟩ := here.reaches_command (h' := h.clearMessage) idle (decodeCommand_encodeCommand .clear)
    (by rintro _ rfl; rfl)
  obtain ⟨u, others, at_u⟩ := at_t.reaches_appends idle
  exact ⟨u, first.trans others, at_u⟩

theorem assemble_runBlock : assemble runBlock =
    [busWrite 0x00#8 (encodeCommand .pack), busWrite 0x00#8 (encodeCommand .start), .poll, busRead 0x08#8] := by
  decide

theorem State.At.reaches_packed (here : s.At h (busWrite 0x00#8 (encodeCommand .pack) :: todo)) (idle : h.busy = false)
    (fits : h.len.toNat < 56) : ∃ t, Reaches s t ∧ t.At h.packMessage todo :=
  here.reaches_command idle (decodeCommand_encodeCommand .pack) (by rintro _ rfl; exact exec_pack_fits idle fits)

theorem State.At.reaches_started (here : s.At h (busWrite 0x00#8 (encodeCommand .start) :: todo)) (idle : h.busy = false)
    (packed : h.perr = false) : ∃ t, Reaches s t ∧ t.At h.beginRun todo :=
  here.reaches_command idle (decodeCommand_encodeCommand .start) (by rintro _ rfl; exact exec_start_accepted idle packed)

theorem State.At.reaches_begun (here : s.At h (assemble runBlock ++ todo)) (idle : h.busy = false) (fits : h.len.toNat < 56)
    (packed : h.perr = false) : ∃ t, Reaches s t ∧ t.At h.packMessage.beginRun (.poll :: busRead 0x08#8 :: todo) := by
  rw [assemble_runBlock] at here
  obtain ⟨t, first, at_t⟩ := here.reaches_packed idle fits
  obtain ⟨u, second, at_u⟩ := at_t.reaches_started (h.packMessage_busy.trans idle) (h.packMessage_perr.trans packed)
  exact ⟨u, first.trans second, at_u⟩

/-! ### The run completes while the host polls, R162 and R297 -/

/-- An ENGINE turn during a run does its next round, and the last round completes the run. -/
theorem State.At.engineRound_running (here : s.At h todo) (run : h.AfterRounds w n) (lt : n < 64) :
    ∃ t h', engineRound s = .next t ∧ t.At h' todo ∧ t.schedule = s.schedule ∧
      (h'.Completed w ∨ h'.AfterRounds w (n + 1) ∧ n + 1 < 64) := by
  obtain ⟨rfl, pending, free⟩ := here
  refine ⟨_, _, run.engineRound_eq lt, ⟨rfl, pending, free⟩, rfl, ?_⟩
  obtain before | rfl : n < 63 ∨ n = 63 := by omega
  · exact .inr ⟨run.roundStep before, by omega⟩
  · exact .inl run.roundStep_completed

/-- Log entry 2: once the schedule is used up the ENGINE alone steps while BUSY = 1. -/
theorem State.At.reaches_completed_by_default (here : s.At h todo) (used : s.schedule = []) (run : h.AfterRounds w n) (lt : n < 64) :
    ∃ t h', Reaches s t ∧ t.At h' todo ∧ h'.Completed w := by
  induction left : 64 - n using Nat.strong_induction_on generalizing s h n with | _ k ih =>
  have turn : step s = engineRound s := by
    rw [step_default used, defaultTurn, if_pos (here.hce ▸ run.busy)]
    rfl
  obtain ⟨t, h', round, at_t, schedule, completed | ⟨run', lt'⟩⟩ := here.engineRound_running run lt
  · exact ⟨t, h', .of_step (turn.trans round), at_t, completed⟩
  · obtain ⟨u, h'', others, at_u, completed⟩ := ih _ (by omega) at_t (schedule.trans used) run' lt' rfl
    exact ⟨u, h'', .head (turn.trans round) others, at_u, completed⟩

/-- In every order of turns, a poll during the run reads BUSY = 1 and stays the host's next action. -/
theorem State.At.reaches_completed (here : s.At h (.poll :: todo)) (run : h.AfterRounds w n) (lt : n < 64) :
    ∃ t h', Reaches s t ∧ t.At h' (.poll :: todo) ∧ h'.Completed w := by
  induction hs : s.schedule generalizing s h n with
  | nil => exact here.reaches_completed_by_default hs run lt
  | cons u turns ih =>
    have later := here.withSchedule hs
    cases u with
    | host =>
      have busy : s.hce.busy = true := here.hce ▸ run.busy
      have polled := hostTurn_poll_busy later.pending (s.hce.statusWord_bit0.trans busy)
      have at_poll : State.At { s with schedule := turns, reads := s.hce.statusWord :: s.reads } h (.poll :: todo) :=
        ⟨later.hce, later.pending, later.resetFree⟩
      obtain ⟨t, h', others, at_t, completed⟩ := ih at_poll run lt rfl
      exact ⟨t, h', .head ((step_scheduled hs).trans polled) others, at_t, completed⟩
    | engine =>
      obtain ⟨t, h', round, at_t, schedule, completed | ⟨run', lt'⟩⟩ := later.engineRound_running run lt
      · exact ⟨t, h', .of_step ((step_scheduled hs).trans round), at_t, completed⟩
      · obtain ⟨u, h'', others, at_u, completed⟩ := ih at_t run' lt' schedule
        exact ⟨u, h'', .head ((step_scheduled hs).trans round) others, at_u, completed⟩
    | reset => exact absurd rfl (here.head_ne_reset hs)

/-! ### The result is read -/

/-- A poll of an idle HCE goes on. -/
theorem State.At.reaches_polled (here : s.At h (.poll :: todo)) (idle : h.busy = false) : ∃ t, Reaches s t ∧ t.At h todo := by
  obtain ⟨u, at_u, reaches⟩ := here.reaches_hostTurn idle
  have polled := hostTurn_poll_idle at_u.pending (u.hce.statusWord_bit0.trans (at_u.hce ▸ idle))
  exact ⟨_, reaches _ polled, at_u.hce, rfl, at_u.resetFree⟩

theorem State.At.reaches_result_read (here : s.At h (busRead 0x08#8 :: todo)) (idle : h.busy = false) :
    ∃ t, Reaches s t ∧ t.At h todo ∧ t.reads.head? = some h.result := by
  obtain ⟨u, at_u, reaches⟩ := here.reaches_hostTurn idle
  have read := hostTurn_access (i := .rdResult) at_u.pending rfl
  exact ⟨_, reaches _ read, ⟨at_u.hce, rfl, at_u.resetFree⟩, by rw [← at_u.hce]; rfl⟩

end

/-- The part of R193 after the loading: the host packs its message, runs it and reads RESULT. -/
theorem State.At.reaches_runBlock_read {s : State} {h : Hce} {todo : List HostAction} (here : s.At h (assemble runBlock ++ todo))
    (idle : h.busy = false) (fits : h.len.toNat < 56) (packed : h.perr = false) :
    ∃ t h', Reaches s t ∧ t.At h' todo ∧ h'.Completed (blockOf (pad h.message)) ∧
      t.reads.head? = some (compress (blockOf (pad h.message))) := by
  obtain ⟨t, begun, at_t⟩ := here.reaches_begun idle fits packed
  obtain ⟨u, h', ran, at_u, completed⟩ := at_t.reaches_completed (Hce.beginRun_afterRounds _) (by decide)
  obtain ⟨v, polled, at_v⟩ := at_u.reaches_polled completed.idle
  obtain ⟨x, read, at_x, result⟩ := at_v.reaches_result_read completed.idle
  exact ⟨x, h', begun.trans (ran.trans (polled.trans read)), at_x, completed, result.trans (congrArg some completed.result)⟩

/-- Settles O45: the message is loaded, and what the host then packs, runs and reads is that message's block. -/
theorem hostReadsCompressOfPackUnderEverySchedule : Obligations.HostReadsCompressOfPackUnderEverySchedule := by
  intro s m idle free short hp
  have here : s.At s.hce (assemble (loadMessage m) ++ (assemble runBlock ++ [])) :=
    ⟨rfl, by rw [hp]; simp [assemble], free⟩
  obtain ⟨t, loaded, at_t⟩ := here.reaches_loaded idle
  have len := s.hce.clearMessage_appendBytes_len m
  have message := s.hce.clearMessage_appendBytes_message (m := m) (by omega)
  obtain ⟨u, h, ran, at_u, completed, read⟩ := at_t.reaches_runBlock_read (by simpa using idle) (by omega) (by simp)
  rw [message] at completed read
  obtain ⟨n, reached⟩ := loaded.trans ran
  refine ⟨n, u, _, reached, at_u.pending, packBlock_fits (by omega), read, ?_, ?_⟩
  · rw [at_u.hce]; exact completed.result
  · rw [at_u.hce]; exact completed.block

end Sys2Proof.Machine
end

section
/-!
PROOFS of 43_host_search_driver.md, the functions: `decimal_text` (O46), the seed (O51), what trying a stretch of counters answers
and from it `search` (O47, O48, O49, O50) and `solve` (O52), and the split search (O53, O54).
-/

namespace Sys2Proof.Machine

/-! ### decimal_text, R222 -/

theorem decimalDigits_eq {fuel i : Nat} (acc : List Byte) (pos : 0 < i) (le : i ≤ fuel) :
    decimalDigits fuel i acc = ((Nat.digits 10 i).map digitByte).reverse ++ acc := by
  induction fuel generalizing i acc with
  | zero => omega
  | succ fuel ih =>
    rw [decimalDigits, Nat.digits_def' (by decide) pos, List.map_cons, List.reverse_cons, List.append_assoc,
      List.singleton_append]
    split
    · next last => simp [last]
    · next more => exact ih _ (by omega) (by omega)

/-- The digits of `i`, which the library lists from the least significant on. -/
theorem decimalText_eq (i : Nat) : decimalText i = ((Nat.digits 10 i).map digitByte).reverse := by
  obtain rfl | pos := Nat.eq_zero_or_pos i
  · rfl
  · exact (decimalDigits_eq [] pos le_rfl).trans (List.append_nil _)

theorem decimalText_length (i : Nat) : (decimalText i).length = (Nat.digits 10 i).length := by
  simp [decimalText_eq]

theorem digitByte_toNat {d : Nat} (lt : d < 10) : (digitByte d).toNat = 0x30 + d := by
  rw [digitByte, BitVec.toNat_ofNat]
  omega

theorem decimalText_byte {i : Nat} {b : Byte} (mem : b ∈ decimalText i) : 0x30 ≤ b.toNat ∧ b.toNat ≤ 0x39 := by
  rw [decimalText_eq, List.mem_reverse, List.mem_map] at mem
  obtain ⟨d, digit, rfl⟩ := mem
  have lt : d < 10 := Nat.digits_lt_base (by decide) digit
  rw [digitByte_toNat lt]
  omega

/-- The most significant digit of a positive number is not 0. -/
theorem decimalText_head_ne_zero {i : Nat} (pos : 1 ≤ i) : (decimalText i).head? ≠ some 0x30#8 := by
  have some_digit : Nat.digits 10 i ≠ [] := Nat.digits_ne_nil_iff_ne_zero.mpr (by omega)
  have first_ne : (Nat.digits 10 i).getLast some_digit ≠ 0 := Nat.getLast_digit_ne_zero 10 (by omega)
  have first_lt : (Nat.digits 10 i).getLast some_digit < 10 := Nat.digits_lt_base (by decide) (List.getLast_mem some_digit)
  rw [decimalText_eq, List.head?_reverse, List.getLast?_map, List.getLast?_eq_some_getLast some_digit, Option.map_some]
  intro zero
  have byte := congrArg BitVec.toNat (Option.some.inj zero)
  rw [digitByte_toNat first_lt, BitVec.toNat_ofNat] at byte
  omega

theorem foldr_digitByte {ds : List Nat} (digits : ∀ d ∈ ds, d < 10) :
    (ds.map digitByte).foldr (fun b n => 10 * n + (b.toNat - 0x30)) 0 = Nat.ofDigits 10 ds := by
  induction ds with
  | nil => rfl
  | cons d ds ih =>
    obtain ⟨digit, others⟩ := List.forall_mem_cons.mp digits
    rw [List.map_cons, List.foldr_cons, ih others, digitByte_toNat digit, Nat.ofDigits_cons]
    omega

/-- Settles O46: the text is the library's digits in reverse, and each clause a fact about those. -/
theorem decimalTextIsTheNumber : Obligations.DecimalTextIsTheNumber := by
  intro i pos
  refine ⟨fun b => decimalText_byte, decimalText_head_ne_zero pos, ?_⟩
  rw [decimalText_eq, List.foldl_reverse, foldr_digitByte fun d => Nat.digits_lt_base (by decide), Nat.ofDigits_digits]

/-! ### The seed, R227 -/

/-- Settles O51: the two outcomes of the construction, and a seed's own bound is the one checked. -/
theorem seedIsCheckedAtConstruction : Obligations.SeedIsCheckedAtConstruction :=
  ⟨fun _ => Seed.construct_long, fun _ short => ⟨_, Seed.construct_short short, rfl⟩,
    fun seed => ⟨seed.short, Seed.construct_short seed.short⟩⟩

/-! ### One counter, R223, R225 and R228 -/

section
variable {seed : Seed} {mask : Word} {i : Nat}

theorem tryCounter_eq_found_iff : tryCounter seed mask i = .found ↔
    ∃ w, packBlock (candidate seed i) = some w ∧ compress w &&& mask = 0#32 := by
  obtain ⟨verdict, long, -⟩ | ⟨w, packed, ⟨verdict, passes⟩ | ⟨verdict, fails⟩⟩ := tryCounter_cases seed mask i
  · simp [verdict, long]
  · simp [verdict, packed, passes]
  · simp [verdict, packed, fails]

theorem tryCounter_eq_miss_iff : tryCounter seed mask i = .miss ↔
    ∃ w, packBlock (candidate seed i) = some w ∧ compress w &&& mask ≠ 0#32 := by
  obtain ⟨verdict, long, -⟩ | ⟨w, packed, ⟨verdict, passes⟩ | ⟨verdict, fails⟩⟩ := tryCounter_cases seed mask i
  · simp [verdict, long]
  · simp [verdict, packed, passes]
  · simp [verdict, packed, fails]

theorem tryCounter_eq_overflow_iff : tryCounter seed mask i = .overflow ↔ 56 ≤ (candidate seed i).length := by
  obtain ⟨verdict, -, long⟩ | ⟨w, packed, verdict⟩ := tryCounter_cases seed mask i
  · simp [verdict, long]
  · have short : ¬ 56 ≤ (candidate seed i).length := fun long => by simp [packBlock_too_long long] at packed
    obtain ⟨verdict, -⟩ | ⟨verdict, -⟩ := verdict <;> simp [verdict, short]

theorem candidate_length (seed : Seed) (i : Nat) :
    (candidate seed i).length = seed.bytes.length + (Nat.digits 10 i).length := by
  rw [candidate, List.length_append, decimalText_length]

/-- Candidates do not get shorter, so after an overflow every counter overflows. -/
theorem tryCounter_overflow_mono {j : Nat} (mask' : Word) (le : i ≤ j) (long : tryCounter seed mask i = .overflow) :
    tryCounter seed mask' j = .overflow := by
  rw [tryCounter_eq_overflow_iff, candidate_length] at long ⊢
  have digits := Nat.le_length_digits_le 10 i j le
  omega

end

/-! ### A stretch of counters, R223 -/

/-- Every counter from `first` up to `last`, `last` not included, was tried without a match. -/
def MissesBefore (seed : Seed) (mask : Word) (first last : Nat) : Prop :=
  ∀ j, first ≤ j → j < last → tryCounter seed mask j = .miss

theorem MissesBefore.empty (seed : Seed) (mask : Word) (first : Nat) : MissesBefore seed mask first first :=
  fun _ ge lt => absurd ge (Nat.not_le.mpr lt)

theorem MissesBefore.cons {seed : Seed} {mask : Word} {first last : Nat} (miss : tryCounter seed mask first = .miss)
    (later : MissesBefore seed mask (first + 1) last) : MissesBefore seed mask first last := fun j ge lt => by
  obtain rfl | gt := Nat.eq_or_lt_of_le ge
  · exact miss
  · exact later j gt lt

/-- What an answer says of the `size` counters from `first` on. -/
inductive Tried (seed : Seed) (mask : Word) (first size : Nat) : WorkerAnswer → Prop where
  | found {i : Nat} (ge : first ≤ i) (lt : i < first + size) (passes : tryCounter seed mask i = .found)
      (before : MissesBefore seed mask first i) : Tried seed mask first size (.found i)
  | exhausted (all : MissesBefore seed mask first (first + size)) : Tried seed mask first size .exhausted
  | overflow {i : Nat} (ge : first ≤ i) (lt : i < first + size) (long : tryCounter seed mask i = .overflow)
      (before : MissesBefore seed mask first i) : Tried seed mask first size .overflow

section
variable {seed : Seed} {mask : Word} {first size : Nat}

/-- A miss in front of a stretch. -/
theorem Tried.cons {a : WorkerAnswer} (miss : tryCounter seed mask first = .miss) (later : Tried seed mask (first + 1) size a) :
    Tried seed mask first (size + 1) a := by
  cases later with
  | found ge lt passes before => exact .found (by omega) (by omega) passes (before.cons miss)
  | exhausted all => exact .exhausted (by rw [Nat.add_comm size, ← Nat.add_assoc]; exact all.cons miss)
  | overflow ge lt long before => exact .overflow (by omega) (by omega) long (before.cons miss)

theorem tryRange_tried (seed : Seed) (mask : Word) (size first : Nat) :
    Tried seed mask first size (tryRange seed mask size first) := by
  induction size generalizing first with
  | zero => exact .exhausted (.empty seed mask first)
  | succ size ih =>
    cases verdict : tryCounter seed mask first with
    | found =>
      rw [tryRange_found size verdict]
      exact .found le_rfl (by omega) verdict (.empty seed mask first)
    | overflow =>
      rw [tryRange_overflow size verdict]
      exact .overflow le_rfl (by omega) verdict (.empty seed mask first)
    | miss =>
      rw [tryRange_miss size verdict]
      exact .cons verdict (ih _)

theorem tryRange_add_of_exhausted (more : Nat) (exhausted : tryRange seed mask size first = .exhausted) :
    tryRange seed mask (size + more) first = tryRange seed mask more (first + size) := by
  induction size generalizing first with
  | zero => rw [Nat.zero_add, Nat.add_zero]
  | succ size ih =>
    cases verdict : tryCounter seed mask first with
    | found => cases (tryRange_found size verdict).symm.trans exhausted
    | overflow => cases (tryRange_overflow size verdict).symm.trans exhausted
    | miss =>
      rw [tryRange_miss size verdict] at exhausted
      rw [Nat.add_right_comm, tryRange_miss _ verdict, ih exhausted, Nat.add_right_comm, Nat.add_assoc]

theorem tryRange_add_of_stopped {a : WorkerAnswer} (more : Nat) (answer : tryRange seed mask size first = a)
    (stopped : a ≠ .exhausted) : tryRange seed mask (size + more) first = a := by
  induction size generalizing first with
  | zero => exact absurd answer.symm stopped
  | succ size ih =>
    rw [Nat.add_right_comm]
    cases verdict : tryCounter seed mask first with
    | found => rwa [tryRange_found _ verdict, ← tryRange_found size verdict]
    | overflow => rwa [tryRange_overflow _ verdict, ← tryRange_overflow size verdict]
    | miss =>
      rw [tryRange_miss _ verdict]
      exact ih ((tryRange_miss size verdict).symm.trans answer)

end

/-! ### search, R221 and R223, is a stretch from the counter 1 on -/

/-- What a search answers whose one host answers `a` (R228, R229). -/
def WorkerAnswer.toExcept : WorkerAnswer → Except SearchError Nat
  | .found i => .ok i
  | .exhausted => .error .counterOverflow
  | .overflow => .error .messageOverflow

theorem searchLoop_eq_tryRange (seed : Seed) (mask : Word) (left i : Nat) :
    searchLoop seed mask left i = (tryRange seed mask (left + 1) i).toExcept := by
  induction left generalizing i with
  | zero =>
    cases verdict : tryCounter seed mask i with
    | found => rw [searchLoop_found _ verdict, tryRange_found _ verdict]; rfl
    | overflow => rw [searchLoop_overflow _ verdict, tryRange_overflow _ verdict]; rfl
    | miss => rw [searchLoop_last verdict, tryRange_miss _ verdict]; rfl
  | succ left ih =>
    cases verdict : tryCounter seed mask i with
    | found => rw [searchLoop_found _ verdict, tryRange_found _ verdict]; rfl
    | overflow => rw [searchLoop_overflow _ verdict, tryRange_overflow _ verdict]; rfl
    | miss => rw [searchLoop_miss _ verdict, tryRange_miss _ verdict, ih]

/-- Also with COUNTER_BITS = 0, where the counter 1 alone is tried (log entry 14). -/
theorem search_eq_tryRange (cb : Nat) (seed : Seed) (mask : Word) :
    search cb seed mask = (tryRange seed mask (lastCounter cb - 1 + 1) 1).toExcept := searchLoop_eq_tryRange _ _ _ _

theorem searchUpTo_eq_tryRange {bound : Nat} (pos : 1 ≤ bound) (seed : Seed) (mask : Word) :
    searchUpTo bound seed mask = (tryRange seed mask bound 1).toExcept := by
  rw [searchUpTo, searchLoop_eq_tryRange, Nat.sub_add_cancel pos]

theorem one_le_lastCounter {cb : Nat} (pos : 1 ≤ cb) : 1 ≤ lastCounter cb := by
  have two_le : 2 ^ 1 ≤ 2 ^ cb := Nat.pow_le_pow_right (by decide) pos
  unfold lastCounter
  omega

section
variable {cb : Nat} {seed : Seed} {mask : Word}

/-- What a search answers says something of the counters from 1 on. -/
theorem search_tried (cb : Nat) (seed : Seed) (mask : Word) :
    ∃ a, Tried seed mask 1 (lastCounter cb - 1 + 1) a ∧ search cb seed mask = a.toExcept :=
  ⟨_, tryRange_tried seed mask _ 1, search_eq_tryRange cb seed mask⟩

theorem search_eq_ok {i : Nat} (h : search cb seed mask = .ok i) :
    1 ≤ i ∧ i < 1 + (lastCounter cb - 1 + 1) ∧ tryCounter seed mask i = .found ∧ MissesBefore seed mask 1 i := by
  obtain ⟨a, tried, answer⟩ := search_tried cb seed mask
  rw [answer] at h
  cases tried with
  | found ge lt passes before => obtain rfl := Except.ok.inj h; exact ⟨ge, lt, passes, before⟩
  | exhausted | overflow => cases h

theorem search_eq_error {e : SearchError} (h : search cb seed mask = .error e) :
    (e = .counterOverflow ∧ MissesBefore seed mask 1 (1 + (lastCounter cb - 1 + 1))) ∨
    (e = .messageOverflow ∧ ∃ i, 1 ≤ i ∧ i < 1 + (lastCounter cb - 1 + 1) ∧ tryCounter seed mask i = .overflow ∧
      MissesBefore seed mask 1 i) := by
  obtain ⟨a, tried, answer⟩ := search_tried cb seed mask
  rw [answer] at h
  cases tried with
  | found => cases h
  | exhausted all => exact .inl ⟨(Except.error.inj h).symm, all⟩
  | overflow ge lt long before => exact .inr ⟨(Except.error.inj h).symm, _, ge, lt, long, before⟩

end

/-- Settles O47: the counter found passes, and those before it were misses. -/
theorem searchReturnsTheSmallestPassingCounter : Obligations.SearchReturnsTheSmallestPassingCounter := by
  intro cb seed mask i h
  obtain ⟨pos, -, passes, before⟩ := search_eq_ok h
  exact ⟨pos, tryCounter_eq_found_iff.mp passes, fun j ge lt => tryCounter_eq_miss_iff.mp (before j ge lt)⟩

/-- Settles O48: with COUNTER_BITS >= 1 the stretch ends at the last counter. -/
theorem searchFailsOnlyByOverflow : Obligations.SearchFailsOnlyByOverflow := by
  intro cb seed mask e pos h
  have last : lastCounter cb - 1 + 1 = 2 ^ cb - 1 := Nat.sub_add_cancel (one_le_lastCounter pos)
  obtain ⟨rfl, all⟩ | ⟨rfl, i, ge, lt, long, before⟩ := search_eq_error h
  · exact .inl ⟨rfl, fun j ge le => tryCounter_eq_miss_iff.mp (all j ge (by omega))⟩
  · exact .inr ⟨rfl, i, ge, by omega, tryCounter_eq_overflow_iff.mp long,
      fun j ge lt => tryCounter_eq_miss_iff.mp (before j ge lt)⟩

/-- R236: at most 20 of the 56 bytes are the seed's. -/
theorem le_of_candidate_overflow {seed : Seed} {i : Nat} (long : 56 ≤ (candidate seed i).length) : 10 ^ 35 ≤ i := by
  rw [candidate_length] at long
  have short : seed.bytes.length ≤ 20 := seed.short
  exact (Nat.lt_digits_length_iff (by decide) i).mp (by omega)

/-- Settles O49: the counter 10^35 has more than 116 bits. -/
theorem messageOverflowNeedsMoreThan116CounterBits : Obligations.MessageOverflowNeedsMoreThan116CounterBits := by
  refine ⟨fun seed i => le_of_candidate_overflow, fun cb seed mask bits h => ?_⟩
  obtain ⟨e, -⟩ | ⟨-, i, -, lt, long, -⟩ := search_eq_error h
  · cases e
  · have large := le_of_candidate_overflow (tryCounter_eq_overflow_iff.mp long)
    have small : 2 ^ cb ≤ 2 ^ 116 := Nat.pow_le_pow_right (by decide) bits
    unfold lastCounter at lt
    omega

/-- A mask with fewer bits lets every word pass that the other lets pass. -/
theorem and_weaker_eq_zero {strict weak v : Word} (fewer : strict &&& weak = weak) (passes : v &&& strict = 0#32) :
    v &&& weak = 0#32 := by
  rw [← fewer, ← BitVec.and_assoc, passes, BitVec.zero_and]

theorem tryCounter_found_weaker {seed : Seed} {strict weak : Word} {i : Nat} (fewer : strict &&& weak = weak)
    (found : tryCounter seed strict i = .found) : tryCounter seed weak i = .found := by
  obtain ⟨w, packed, passes⟩ := tryCounter_eq_found_iff.mp found
  exact tryCounter_eq_found_iff.mpr ⟨w, packed, and_weaker_eq_zero fewer passes⟩

/-- Settles O50: where the stricter search stops the weaker mask passes too, and no counter up to there overflows. -/
theorem stricterMaskNeverFindsEarlier : Obligations.StricterMaskNeverFindsEarlier := by
  intro cb seed i h
  obtain ⟨pos, lt, found, -⟩ := search_eq_ok h
  have passes : tryCounter seed 0x00F0FFFF#32 i = .found := tryCounter_found_weaker (by decide) found
  cases weaker : search cb seed 0x00F0FFFF#32 with
  | ok j =>
    obtain ⟨-, -, -, misses⟩ := search_eq_ok weaker
    refine ⟨j, rfl, Nat.not_lt.mp fun gt => ?_⟩
    cases passes.symm.trans (misses i pos gt)
  | error e =>
    obtain ⟨-, all⟩ | ⟨-, k, -, -, long, misses⟩ := search_eq_error weaker
    · cases passes.symm.trans (all i pos lt)
    · obtain le | gt := le_or_gt k i
      · cases passes.symm.trans (tryCounter_overflow_mono _ le long)
      · cases passes.symm.trans (misses i pos gt)

/-! ### solve, R226 -/

theorem solve_of_search_ok {cb : Nat} {seed : Seed} {variant i : Nat} {mask : Word} (used : variantMask variant = .ok mask)
    (h : search cb seed mask = .ok i) : solve cb seed variant = .ok (decimalText i) := by
  simp only [solve, used, h]

theorem solve_of_search_error {cb : Nat} {seed : Seed} {variant : Nat} {mask : Word} {e : SearchError}
    (used : variantMask variant = .ok mask) (h : search cb seed mask = .error e) : solve cb seed variant = .error e := by
  simp only [solve, used, h]

theorem variantMask_outside {variant : Nat} (not_one : variant ≠ 1) (not_two : variant ≠ 2) :
    variantMask variant = .error (.variantOutsideContract variant) := by
  unfold variantMask
  split
  · exact absurd rfl not_one
  · exact absurd rfl not_two
  · rfl

/-- Settles O52: the seed's check comes first; then the variant's mask, or none, decides what `solve` answers. -/
theorem solveChecksTheSeedAndUsesTheVariantsMask : Obligations.SolveChecksTheSeedAndUsesTheVariantsMask := by
  refine ⟨fun cb bytes variant long => ?_, fun cb bytes variant seed constructed => ?_,
    fun cb seed variant => ⟨?_, ?_, ?_, ?_, fun not_one not_two => ?_⟩⟩
  · rw [constructAndSolve, Seed.construct_long long]
  · rw [constructAndSolve, constructed]
  · rintro rfl i; exact solve_of_search_ok rfl
  · rintro rfl i; exact solve_of_search_ok rfl
  · rintro rfl e; exact solve_of_search_error rfl
  · rintro rfl e; exact solve_of_search_error rfl
  · rw [solve, variantMask_outside not_one not_two]

/-! ### Ranges that partition the counters, R234 -/

theorem partitions_cons_iff {last first : Nat} {r : CounterRange} {rs : List CounterRange} :
    partitions last first (r :: rs) = true ↔ r.first = first ∧ partitions last (first + r.size) rs = true := by
  simp [partitions_cons]

theorem le_succ_last_of_partitions {last first : Nat} {ranges : List CounterRange} (parts : partitions last first ranges = true) :
    first ≤ last + 1 := by
  induction ranges generalizing first with
  | nil => simp [partitions_nil] at parts; omega
  | cons r rs ih =>
    obtain ⟨-, rest⟩ := partitions_cons_iff.mp parts
    exact Nat.le_of_add_right_le (ih rest)

theorem first_le_of_mem_partition {last first : Nat} {ranges : List CounterRange} (parts : partitions last first ranges = true)
    {r : CounterRange} (mem : r ∈ ranges) : first ≤ r.first := by
  induction ranges generalizing first with
  | nil => cases mem
  | cons q rs ih =>
    obtain ⟨start, rest⟩ := partitions_cons_iff.mp parts
    obtain rfl | mem := List.mem_cons.mp mem
    · exact start.ge
    · exact Nat.le_of_add_right_le (ih rest mem)

theorem pairwise_of_partitions {last first : Nat} {ranges : List CounterRange} (parts : partitions last first ranges = true) :
    ranges.Pairwise fun r q => r.first + r.size ≤ q.first := by
  induction ranges generalizing first with
  | nil => exact .nil
  | cons r rs ih =>
    obtain ⟨rfl, rest⟩ := partitions_cons_iff.mp parts
    exact .cons (fun q mem => first_le_of_mem_partition rest mem) (ih rest)

theorem mem_partition_iff {last first : Nat} {ranges : List CounterRange} (parts : partitions last first ranges = true) (i : Nat) :
    first ≤ i ∧ i ≤ last ↔ ∃ r ∈ ranges, r.first ≤ i ∧ i < r.first + r.size := by
  induction ranges generalizing first with
  | nil =>
    have ended : first = last + 1 := by simpa [partitions_nil] using parts
    simp only [List.not_mem_nil, false_and, exists_false, iff_false]
    omega
  | cons r rs ih =>
    obtain ⟨rfl, rest⟩ := partitions_cons_iff.mp parts
    have le := le_succ_last_of_partitions rest
    simp only [List.mem_cons, exists_eq_or_imp, ← ih rest]
    omega

/-- Settles O54: both claims hold of the ranges from any counter on. -/
theorem rangesPartitionTheCounters : Obligations.RangesPartitionTheCounters :=
  fun _ _ parts => ⟨pairwise_of_partitions parts, mem_partition_iff parts⟩

/-! ### The reduction, R234 -/

theorem found_mem_of_smallestFound {answers : List WorkerAnswer} {i : Nat} (h : smallestFound answers = some i) :
    .found i ∈ answers := by
  induction answers generalizing i with
  | nil => cases h
  | cons a as ih =>
    cases a with
    | exhausted | overflow => exact List.mem_cons_of_mem _ (ih h)
    | found k =>
      cases others : smallestFound as with
      | none =>
        rw [smallestFound_cons, others] at h
        obtain rfl := Option.some.inj h
        exact List.mem_cons_self
      | some j =>
        rw [smallestFound_cons, others] at h
        obtain least | least := min_choice k j <;> obtain rfl := least.symm.trans (Option.some.inj h)
        · exact List.mem_cons_self
        · exact List.mem_cons_of_mem _ (ih others)

theorem reduceAnswers_exhausted_cons (answers : List WorkerAnswer) :
    reduceAnswers (.exhausted :: answers) = reduceAnswers answers := by
  simp [reduceAnswers, WorkerAnswer.counter, smaller]

theorem reduceAnswers_found_cons {i : Nat} {answers : List WorkerAnswer} (smallest : ∀ j, .found j ∈ answers → i ≤ j) :
    reduceAnswers (.found i :: answers) = .ok i := by
  have least : smallestFound (.found i :: answers) = some i := by
    rw [smallestFound_cons]
    cases others : smallestFound answers with
    | none => rfl
    | some j => exact congrArg some (Nat.min_eq_left (smallest j (found_mem_of_smallestFound others)))
  rw [reduceAnswers, least]

theorem reduceAnswers_overflow_cons {answers : List WorkerAnswer} (none_found : ∀ j, .found j ∉ answers) :
    reduceAnswers (.overflow :: answers) = .error .messageOverflow := by
  have absent : smallestFound (.overflow :: answers) = none := by
    rw [smallestFound_cons]
    cases others : smallestFound answers with
    | none => rfl
    | some j => exact absurd (found_mem_of_smallestFound others) (none_found j)
  rw [reduceAnswers, absent]
  exact if_pos List.mem_cons_self

/-! ### The split search, R234 -/

section
variable {last first : Nat} {ranges : List CounterRange} {seed : Seed} {mask : Word}

/-- The counter a worker of a partition found. -/
theorem found_of_mem_partition {i : Nat} (parts : partitions last first ranges = true)
    (mem : .found i ∈ ranges.map fun r => tryRange seed mask r.size r.first) :
    first ≤ i ∧ tryCounter seed mask i = .found := by
  obtain ⟨r, mem, answer⟩ := List.mem_map.mp mem
  have tried := tryRange_tried seed mask r.size r.first
  rw [answer] at tried
  cases tried with
  | found ge _ passes _ => exact ⟨(first_le_of_mem_partition parts mem).trans ge, passes⟩

/-- R234: the first worker that does not run out of counters decides, as in one search. -/
theorem splitSearch_eq_tryRange (parts : partitions last first ranges = true) :
    splitSearch seed mask ranges = (tryRange seed mask (last + 1 - first) first).toExcept := by
  induction ranges generalizing first with
  | nil =>
    obtain rfl : first = last + 1 := by simpa [partitions_nil] using parts
    rw [Nat.sub_self]
    rfl
  | cons r rs ih =>
    obtain ⟨rfl, rest⟩ := partitions_cons_iff.mp parts
    have le := le_succ_last_of_partitions rest
    have size : last + 1 - r.first = r.size + (last + 1 - (r.first + r.size)) := by omega
    rw [size, splitSearch, List.map_cons]
    have tried := tryRange_tried seed mask r.size r.first
    cases answer : tryRange seed mask r.size r.first with
    | exhausted => rw [reduceAnswers_exhausted_cons, tryRange_add_of_exhausted _ answer, ← ih rest, splitSearch]
    | found i =>
      rw [answer] at tried
      cases tried with | found ge lt passes before =>
      rw [tryRange_add_of_stopped _ answer (by simp)]
      refine reduceAnswers_found_cons fun j mem => ?_
      obtain ⟨later, -⟩ := found_of_mem_partition rest mem
      omega
    | overflow =>
      rw [answer] at tried
      cases tried with | overflow ge lt long before =>
      rw [tryRange_add_of_stopped _ answer (by simp)]
      refine reduceAnswers_overflow_cons fun j mem => ?_
      obtain ⟨later, found⟩ := found_of_mem_partition rest mem
      cases found.symm.trans (tryCounter_overflow_mono mask (by omega) long)

end

theorem splitSearch_eq_search {cb : Nat} {ranges : List CounterRange} (pos : 1 ≤ cb)
    (parts : partitions (lastCounter cb) 1 ranges = true) (seed : Seed) (mask : Word) :
    splitSearch seed mask ranges = search cb seed mask := by
  rw [splitSearch_eq_tryRange parts, search, searchUpTo_eq_tryRange (one_le_lastCounter pos), Nat.add_sub_cancel]

/-- Settles O53: both the split search and the one search are the stretch from the counter 1 to the bound. -/
theorem splitSearchFindsTheSameCounter : Obligations.SplitSearchFindsTheSameCounter := by
  refine ⟨fun bound seed mask ranges pos parts => ?_,
    fun cb seed mask ranges pos parts => splitSearch_eq_search pos parts seed mask⟩
  rw [splitSearch_eq_tryRange parts, searchUpTo_eq_tryRange pos, Nat.add_sub_cancel]

end Sys2Proof.Machine
end

section
/-!
PROOFS of 43_host_search_driver.md, the host on the HCE: one iteration of R224 tries one counter (`Worker.leadsTo_tried`), so a host
that starts on an idle HCE heads for what `tryRange` answers (`Worker.heads_tryRange`), which is the reference search (O56).
-/

namespace Sys2Proof.Machine

/-! ### What a step leaves of the host's actions and of the schedule -/

theorem takeTurn_leaves {u : Turn} {s t : State} (h : takeTurn u s = .next t) :
    t.pending <:+ s.pending ∧ t.schedule = s.schedule := by
  cases u with
  | host => exact ⟨hostTurn_pending h, hostTurn_schedule h⟩
  | engine => obtain ⟨-, rfl⟩ | ⟨-, -, rfl⟩ := engineRound_cases h <;> exact ⟨List.suffix_refl _, rfl⟩
  | reset => obtain rfl := Host.Outcome.next.inj h; exact ⟨List.suffix_refl _, rfl⟩

theorem step_leaves {s t : State} (h : step s = .next t) : t.pending <:+ s.pending ∧ t.schedule <:+ s.schedule := by
  obtain ⟨u, turns, scheduled, turn⟩ | ⟨-, turn⟩ := step_turn s
  · obtain ⟨pending, schedule⟩ := takeTurn_leaves (turn.symm.trans h)
    exact ⟨pending, by rw [schedule, scheduled]; exact List.suffix_cons u turns⟩
  · obtain ⟨pending, schedule⟩ := takeTurn_leaves (turn.symm.trans h)
    exact ⟨pending, by rw [schedule]⟩

theorem Reaches.leaves {s t : State} (reaches : Reaches s t) : t.pending <:+ s.pending ∧ t.schedule <:+ s.schedule := by
  obtain ⟨n, run⟩ := reaches
  induction n generalizing s with
  | zero => obtain rfl := Host.Outcome.next.inj run; exact ⟨List.suffix_refl _, List.suffix_refl _⟩
  | succ n ih =>
    obtain ⟨u, first, others⟩ := run_next_inv run
    obtain ⟨pending, schedule⟩ := step_leaves first
    obtain ⟨pending', schedule'⟩ := ih others
    exact ⟨pending'.trans pending, schedule'.trans schedule⟩

theorem Reaches.pending_ne_nil {s t : State} (reaches : Reaches s t) (left : t.pending ≠ []) : s.pending ≠ [] := by
  obtain ⟨pending, -⟩ := reaches.leaves
  intro served
  exact left (List.suffix_nil.mp (served ▸ pending))

theorem Reaches.schedule_eq_nil {s t : State} (reaches : Reaches s t) (used : s.schedule = []) : t.schedule = [] := by
  obtain ⟨-, schedule⟩ := reaches.leaves
  exact List.suffix_nil.mp (used ▸ schedule)

/-- The HCE is idle and nothing is asked of it. -/
structure State.Ready (s : State) : Prop where
  idle : s.hce.busy = false
  pending : s.pending = []
  schedule : s.schedule = []

/-- The host of an HCE that is ready asks for a program. -/
theorem State.Ready.submit_at {s : State} (ready : s.Ready) (p : List HostAsm) : (s.submit p).At s.hce (assemble p) where
  hce := rfl
  pending := by rw [State.submit_pending, ready.pending, List.nil_append]
  resetFree := by simp [State.resetFree, ready.schedule]

/-! ### A host's turns, R224 -/

section
variable (seed : Seed) (mask : Word) {k : Worker} {s : State}

theorem Worker.turn_load (phase : k.phase = .load) : k.turn seed mask s =
    .next ({ k with phase := .check }, s.submit (loadMessage (candidate seed k.counter) ++ [.rdStatus])) := by
  unfold Worker.turn; rw [phase]

theorem Worker.turn_check (phase : k.phase = .check) (served : s.pending = []) : k.turn seed mask s =
    if s.lastRead.getLsbD 4 then .next (k.finish .overflow, s) else .next ({ k with phase := .judge }, s.submit runBlock) := by
  unfold Worker.turn; rw [phase, served]; rfl

theorem Worker.turn_judge (phase : k.phase = .judge) (served : s.pending = []) : k.turn seed mask s =
    if maskPasses s.lastRead mask then .next (k.finish (.found k.counter), s) else .next (k.advance, s) := by
  unfold Worker.turn; rw [phase, served]; rfl

end

/-- Some number of the host's turns leads from one stand of it and of its HCE to another. -/
def Worker.LeadsTo (seed : Seed) (mask : Word) (k : Worker) (s : State) (k' : Worker) (t : State) : Prop :=
  ∃ n, Worker.run seed mask n k s = .next (k', t)

section
variable {seed : Seed} {mask : Word} {k k' k'' : Worker} {s t u : State}

theorem Worker.run_turn {n : Nat} (first : k.turn seed mask s = .next (k', t)) :
    Worker.run seed mask (n + 1) k s = Worker.run seed mask n k' t := by
  rw [Worker.run, first]

theorem Worker.run_turn_inv {n : Nat} (h : Worker.run seed mask (n + 1) k s = .next (k'', u)) :
    ∃ k' t, k.turn seed mask s = .next (k', t) ∧ Worker.run seed mask n k' t = .next (k'', u) := by
  rw [Worker.run] at h
  split at h
  · exact ⟨_, _, ‹_›, h⟩
  · cases h
  · cases h

theorem Worker.LeadsTo.refl (k : Worker) (s : State) : k.LeadsTo seed mask s k s := ⟨0, rfl⟩

theorem Worker.LeadsTo.trans (first : k.LeadsTo seed mask s k' t) (second : k'.LeadsTo seed mask t k'' u) :
    k.LeadsTo seed mask s k'' u := by
  obtain ⟨n, first⟩ := first
  obtain ⟨m, second⟩ := second
  exact ⟨n + m, Worker.run_join first second⟩

theorem Worker.LeadsTo.of_turn (h : k.turn seed mask s = .next (k', t)) : k.LeadsTo seed mask s k' t := ⟨1, Worker.run_turn h⟩

theorem Worker.LeadsTo.head (first : k.turn seed mask s = .next (k', t)) (rest : k'.LeadsTo seed mask t k'' u) :
    k.LeadsTo seed mask s k'' u := (Worker.LeadsTo.of_turn first).trans rest

/-! ### The host waits for its accesses -/

/-- The host's waiting turns are steps of its HCE, as long as an action is left. -/
theorem Worker.leadsTo_of_reaches (phase : k.phase = .check ∨ k.phase = .judge) (reaches : Reaches s t) (left : t.pending ≠ []) :
    k.LeadsTo seed mask s k t := by
  obtain ⟨n, run⟩ := reaches
  induction n generalizing s with
  | zero => obtain rfl := Host.Outcome.next.inj run; exact .refl k s
  | succ n ih =>
    obtain ⟨u, first, others⟩ := run_next_inv run
    have left_s : s.pending ≠ [] := Reaches.pending_ne_nil ⟨n + 1, run⟩ left
    exact .head (Worker.turn_waits phase left_s first) (ih others)

/-- The host waits until its last action, a read, has returned its word. -/
theorem Worker.leadsTo_read {h : Hce} {a : Access} {i : Instr} {value : Hce → Word} (phase : k.phase = .check ∨ k.phase = .judge)
    (reaches : Reaches s t) (used : s.schedule = []) (here : t.At h [.access a]) (idle : h.busy = false)
    (decoded : decodeAccess a = .ok i) (read : ∀ u : State, exec i u = .next (u.returnData (value u.hce))) :
    ∃ u, k.LeadsTo seed mask s k u ∧ u.Ready ∧ u.hce = h ∧ u.lastRead = value h := by
  have left : t.pending ≠ [] := by simp [here.pending]
  have default : step t = hostTurn t := by
    rw [step_default (reaches.schedule_eq_nil used), defaultTurn_idle (here.hce ▸ idle)]
    rfl
  have last := (default.trans (hostTurn_access here.pending decoded)).trans (read _)
  refine ⟨_, (Worker.leadsTo_of_reaches phase reaches left).trans (.of_turn (Worker.turn_waits phase left last)), ?_, here.hce,
    congrArg value here.hce⟩
  exact ⟨here.hce ▸ idle, rfl, reaches.schedule_eq_nil used⟩

end

/-! ### One iteration, R224 -/

theorem assemble_loadMessage_rdStatus (m : List Byte) :
    assemble (loadMessage m ++ [.rdStatus]) = assemble (loadMessage m) ++ [busRead 0x04#8] := by
  simp [assemble, HostAsm.expand]

section
variable (seed : Seed) (mask : Word) {k : Worker} {s : State}

/-- CLEAR, the APPENDs of the candidate, and a read of STATUS. -/
theorem Worker.leadsTo_loaded (phase : k.phase = .load) (ready : s.Ready) :
    ∃ t, k.LeadsTo seed mask s { k with phase := .check } t ∧ t.Ready ∧
      t.hce = s.hce.clearMessage.appendBytes (candidate seed k.counter) ∧ t.lastRead = t.hce.statusWord := by
  have here := ready.submit_at (loadMessage (candidate seed k.counter) ++ [.rdStatus])
  rw [assemble_loadMessage_rdStatus] at here
  obtain ⟨t, loaded, at_t⟩ := here.reaches_loaded ready.idle
  obtain ⟨u, waited, ready_u, hce, word⟩ := Worker.leadsTo_read (k := { k with phase := .check }) (value := Hce.statusWord) (.inl rfl)
    loaded ready.schedule at_t (by simpa using ready.idle) rfl fun _ => rfl
  exact ⟨u, .head (Worker.turn_load seed mask phase) waited, ready_u, hce, word.trans (congrArg _ hce.symm)⟩

/-- MFULL reads 0, so the host packs the message, runs it and reads RESULT. -/
theorem Worker.leadsTo_result (phase : k.phase = .check) (ready : s.Ready) (status : s.lastRead = s.hce.statusWord)
    (fits : s.hce.len.toNat < 56) (packed : s.hce.perr = false) :
    ∃ t, k.LeadsTo seed mask s { k with phase := .judge } t ∧ t.Ready ∧ t.lastRead = compress (blockOf (pad s.hce.message)) := by
  have not_full : ¬ s.lastRead.getLsbD 4 = true := by
    rw [status, Hce.statusWord_mfull]
    rintro full
    simp [full] at fits
  have here := ready.submit_at runBlock
  rw [← List.append_nil (assemble runBlock)] at here
  obtain ⟨t, begun, at_t⟩ := here.reaches_begun ready.idle fits packed
  obtain ⟨u, h, ran, at_u, completed⟩ := at_t.reaches_completed (Hce.beginRun_afterRounds _) (by decide)
  obtain ⟨v, polled, at_v⟩ := at_u.reaches_polled completed.idle
  obtain ⟨x, waited, ready_x, -, word⟩ := Worker.leadsTo_read (k := { k with phase := .judge }) (value := Hce.result) (.inr rfl)
    (begun.trans (ran.trans polled)) ready.schedule at_v completed.idle rfl fun _ => rfl
  have checked := (Worker.turn_check seed mask phase ready.pending).trans (if_neg not_full)
  exact ⟨x, .head checked waited, ready_x, word.trans completed.result⟩

/-- Where a host stands once it knows the verdict on its counter. -/
def Worker.after (k : Worker) : Verdict → Worker
  | .found => k.finish (.found k.counter)
  | .miss => k.advance
  | .overflow => k.finish .overflow

/-- R224 realises the body of the loop of R223. -/
theorem Worker.leadsTo_tried (phase : k.phase = .load) (ready : s.Ready) :
    ∃ t, k.LeadsTo seed mask s (k.after (tryCounter seed mask k.counter)) t ∧ t.Ready := by
  obtain ⟨t, loaded, ready_t, hce, status⟩ := Worker.leadsTo_loaded seed mask phase ready
  have len := s.hce.clearMessage_appendBytes_len (candidate seed k.counter)
  rw [← hce] at len
  obtain ⟨verdict, -, long⟩ | ⟨w, packed, verdict⟩ := tryCounter_cases seed mask k.counter
  · have full : t.lastRead.getLsbD 4 = true := by
      rw [status, Hce.statusWord_mfull]
      exact BitVec.eq_of_toNat_eq (len.trans (Nat.min_eq_right long))
    have checked := (Worker.turn_check seed mask (k := { k with phase := .check }) rfl ready_t.pending).trans (if_pos full)
    rw [verdict]
    exact ⟨t, loaded.trans (.of_turn checked), ready_t⟩
  · have short : (candidate seed k.counter).length < 56 := by
      by_contra long
      simp [packBlock_too_long (Nat.not_lt.mp long)] at packed
    obtain rfl := Option.some.inj ((packBlock_fits short).symm.trans packed)
    have message := s.hce.clearMessage_appendBytes_message short.le
    rw [← hce] at message
    obtain ⟨u, ran, ready_u, result⟩ := Worker.leadsTo_result seed mask (k := { k with phase := .check }) rfl ready_t status
      (by omega) (by simp [hce])
    rw [message] at result
    have judged := Worker.turn_judge seed mask (k := { k with phase := .judge }) rfl ready_u.pending
    rw [result] at judged
    refine ⟨u, loaded.trans (ran.trans (.of_turn ?_)), ready_u⟩
    obtain ⟨verdict, passes⟩ | ⟨verdict, fails⟩ := verdict
    · rw [verdict]
      exact judged.trans (if_pos ((maskPasses_iff _ _).mpr passes))
    · rw [verdict]
      exact judged.trans (if_neg (mt (maskPasses_iff _ _).mp fails))

end

/-! ### A host heads for its answer -/

/-- After some number of its turns the host is done, with the answer `a`. -/
def Worker.Heads (seed : Seed) (mask : Word) (a : WorkerAnswer) (k : Worker) (s : State) : Prop :=
  ∃ k' t, k.LeadsTo seed mask s k' t ∧ k'.answer = some a

section
variable {seed : Seed} {mask : Word} {a : WorkerAnswer} {k k' : Worker} {s t : State}

theorem Worker.Heads.of_answer (s : State) (done : k.answer = some a) : k.Heads seed mask a s := ⟨k, s, .refl k s, done⟩

theorem Worker.Heads.of_leadsTo (leads : k.LeadsTo seed mask s k' t) (heads : k'.Heads seed mask a t) : k.Heads seed mask a s := by
  obtain ⟨k'', u, later, done⟩ := heads
  exact ⟨k'', u, leads.trans later, done⟩

/-- No turn of a host that heads for an answer faults, and it goes on to head for it. -/
theorem Worker.Heads.turn (heads : k.Heads seed mask a s) : ∃ k' t, k.turn seed mask s = .next (k', t) ∧ k'.Heads seed mask a t := by
  obtain ⟨k'', u, ⟨n, run⟩, done⟩ := heads
  cases n with
  | zero =>
    obtain ⟨rfl, rfl⟩ := Prod.mk.inj (Host.Outcome.next.inj run)
    exact ⟨k, s, Worker.turn_finished seed mask done s, .of_answer s done⟩
  | succ n =>
    obtain ⟨k', t, first, others⟩ := Worker.run_turn_inv run
    exact ⟨k', t, first, k'', u, ⟨n, others⟩, done⟩

/-- A host that is done keeps its answer, so it is the one it headed for. -/
theorem Worker.Heads.answer_eq {b : WorkerAnswer} (heads : k.Heads seed mask a s) (done : k.answer = some b) : b = a := by
  obtain ⟨k', t, ⟨n, run⟩, later⟩ := heads
  obtain ⟨rfl, -⟩ := Prod.mk.inj (Host.Outcome.next.inj ((Worker.run_finished seed mask done s n).symm.trans run))
  exact Option.some.inj (done.symm.trans later)

end

@[simp] theorem Worker.begin_counter (counter left : Nat) : (Worker.begin counter left).counter = counter := rfl

/-- R224 and R223: the host on the HCE answers what trying its counters answers. -/
theorem Worker.heads_tryRange (seed : Seed) (mask : Word) {s : State} (counter left : Nat) (ready : s.Ready) :
    (Worker.begin counter left).Heads seed mask (tryRange seed mask (left + 1) counter) s := by
  obtain ⟨t, tried, ready_t⟩ := Worker.leadsTo_tried seed mask (k := .begin counter left) rfl ready
  rw [Worker.begin_counter] at tried
  refine .of_leadsTo tried ?_
  cases verdict : tryCounter seed mask counter with
  | found => rw [tryRange_found left verdict]; exact .of_answer t rfl
  | overflow => rw [tryRange_overflow left verdict]; exact .of_answer t rfl
  | miss =>
    rw [tryRange_miss left verdict]
    cases left with
    | zero => exact .of_answer t rfl
    | succ left => exact Worker.heads_tryRange seed mask (counter + 1) left ready_t

/-- Settles O56: the one host heads for what trying the counters answers, and turns after it is done change nothing. -/
theorem searchOnTheHceIsTheReferenceSearch : Obligations.SearchOnTheHceIsTheReferenceSearch := by
  intro cb seed mask s idle pending schedule
  obtain ⟨k, t, ⟨fuel, run⟩, done⟩ := Worker.heads_tryRange seed mask 1 (lastCounter cb - 1)
    ⟨idle, pending, schedule⟩
  refine ⟨fuel, fun more => ⟨t, ?_⟩⟩
  have run_more := Worker.run_join run (Worker.run_finished seed mask done t more)
  rw [searchOnHce, run_more, search_eq_tryRange]
  simp only [Worker.searchAnswer, done]
  cases tryRange seed mask (lastCounter cb - 1 + 1) 1 with
  | found | exhausted | overflow => rfl

end Sys2Proof.Machine
end

section
/-!
PROOFS of 43_host_search_driver.md, the split search on a platform: each worker heads for its range's answer on an engine of its own,
and a turn of one worker leaves the others (`SplitSearch.Heads.turn`), so under every order of turns the answer is the reduction of
those (O55).
-/

namespace Sys2Proof.Machine

/-- Worker and engine `n` are replaced, and the others stay. -/
def SplitSearch.replace (sp : SplitSearch) (n : Nat) (k : Worker) (e : PlatformEngine) : SplitSearch :=
  { platform := { engines := sp.platform.engines.set n e }, workers := sp.workers.set n k }

section
variable {seed : Seed} {mask : Word} {sp : SplitSearch} {n : Nat} {k k' : Worker} {e e' : PlatformEngine} {t : State}

/-! ### The worker and the engine of one index -/

theorem SplitSearch.replace_worker_self (worker : sp.workers[n]? = some k) : (sp.replace n k' e').workers[n]? = some k' := by
  obtain ⟨lt, -⟩ := List.getElem?_eq_some_iff.mp worker
  exact List.getElem?_set_self lt

theorem SplitSearch.replace_engine_self (engine : sp.platform.engines[n]? = some e) :
    (sp.replace n k' e').platform.engines[n]? = some e' := by
  obtain ⟨lt, -⟩ := List.getElem?_eq_some_iff.mp engine
  exact List.getElem?_set_self lt

theorem SplitSearch.replace_worker_other {m : Nat} (other : m ≠ n) : (sp.replace n k' e').workers[m]? = sp.workers[m]? :=
  List.getElem?_set_ne other.symm

theorem SplitSearch.replace_engine_other {m : Nat} (other : m ≠ n) :
    (sp.replace n k' e').platform.engines[m]? = sp.platform.engines[m]? := List.getElem?_set_ne other.symm

theorem SplitSearch.turn_eq_replace (worker : sp.workers[n]? = some k) (engine : sp.platform.engines[n]? = some e)
    (turn : k.turn seed mask e.machine = .next (k', t)) :
    sp.turn seed mask n = .next (sp.replace n k' { e with machine := t }) := by
  simp only [SplitSearch.turn, worker, engine, turn, SplitSearch.replace]

theorem SplitSearch.turn_absent (absent : sp.workers[n]? = none) : sp.turn seed mask n = .next sp := by
  simp only [SplitSearch.turn, absent]

/-! ### Runs of several turns -/

theorem SplitSearch.run_cons {sp' : SplitSearch} (first : sp.turn seed mask n = .next sp') (turns : List Nat) :
    SplitSearch.run seed mask (n :: turns) sp = SplitSearch.run seed mask turns sp' := by
  rw [SplitSearch.run, first]

theorem SplitSearch.run_append {before : List Nat} {sp' : SplitSearch} (first : SplitSearch.run seed mask before sp = .next sp')
    (after : List Nat) : SplitSearch.run seed mask (before ++ after) sp = SplitSearch.run seed mask after sp' := by
  induction before generalizing sp with
  | nil => obtain rfl := Host.Outcome.next.inj first; rfl
  | cons n before ih =>
    rw [SplitSearch.run] at first
    rw [List.cons_append, SplitSearch.run]
    cases turn : sp.turn seed mask n with
    | next u => rw [turn] at first; exact ih first
    | fault r => rw [turn] at first; cases first
    | refused r => rw [turn] at first; cases first

/-- The turns of one worker alone are its run on its engine. -/
theorem SplitSearch.run_worker {fuel : Nat} (worker : sp.workers[n]? = some k) (engine : sp.platform.engines[n]? = some e)
    (run : Worker.run seed mask fuel k e.machine = .next (k', t)) :
    ∃ sp', SplitSearch.run seed mask (List.replicate fuel n) sp = .next sp' ∧ sp'.workers[n]? = some k' ∧
      ∀ m ≠ n, sp'.workers[m]? = sp.workers[m]? := by
  induction fuel generalizing sp k e with
  | zero =>
    obtain ⟨rfl, -⟩ := Prod.mk.inj (Host.Outcome.next.inj run)
    exact ⟨sp, rfl, worker, fun _ _ => rfl⟩
  | succ fuel ih =>
    obtain ⟨k1, t1, first, others⟩ := Worker.run_turn_inv run
    obtain ⟨sp', later, worker', rest⟩ := ih (sp := sp.replace n k1 { e with machine := t1 })
      (SplitSearch.replace_worker_self worker) (SplitSearch.replace_engine_self engine) others
    refine ⟨sp', ?_, worker', fun m other => (rest m other).trans (SplitSearch.replace_worker_other other)⟩
    rw [List.replicate_succ, SplitSearch.run_cons (SplitSearch.turn_eq_replace worker engine first), later]

end

/-! ### Every worker heads for its answer -/

/-- Worker `n` has engine `n`, on which it heads for answer `n` of the list. -/
structure SplitSearch.Heads (seed : Seed) (mask : Word) (answers : List WorkerAnswer) (sp : SplitSearch) : Prop where
  length : sp.workers.length = answers.length
  worker : ∀ (n : Nat) (k : Worker), sp.workers[n]? = some k → ∃ e a, sp.platform.engines[n]? = some e ∧ answers[n]? = some a ∧
    k.Heads seed mask a e.machine

/-- Every worker is done. -/
def SplitSearch.Done (sp : SplitSearch) : Prop := ∀ k ∈ sp.workers, k.answer.isSome = true

section
variable {seed : Seed} {mask : Word} {answers : List WorkerAnswer} {sp : SplitSearch}

theorem SplitSearch.Heads.turn (heads : sp.Heads seed mask answers) (n : Nat) :
    ∃ sp', sp.turn seed mask n = .next sp' ∧ sp'.Heads seed mask answers := by
  cases worker : sp.workers[n]? with
  | none => exact ⟨sp, SplitSearch.turn_absent worker, heads⟩
  | some k =>
    obtain ⟨e, a, engine, answer, to_answer⟩ := heads.worker n k worker
    obtain ⟨k', t, turn, later⟩ := to_answer.turn
    refine ⟨_, SplitSearch.turn_eq_replace worker engine turn, List.length_set.trans heads.length, fun m q at_m => ?_⟩
    by_cases same : m = n
    · subst same
      obtain rfl := Option.some.inj ((SplitSearch.replace_worker_self worker).symm.trans at_m)
      exact ⟨_, a, SplitSearch.replace_engine_self engine, answer, later⟩
    · rw [SplitSearch.replace_worker_other same] at at_m
      rw [SplitSearch.replace_engine_other same]
      exact heads.worker m q at_m

/-- Under every order of turns. -/
theorem SplitSearch.Heads.run (heads : sp.Heads seed mask answers) (turns : List Nat) :
    ∃ sp', SplitSearch.run seed mask turns sp = .next sp' ∧ sp'.Heads seed mask answers := by
  induction turns generalizing sp with
  | nil => exact ⟨sp, rfl, heads⟩
  | cons n turns ih =>
    obtain ⟨u, first, heads_u⟩ := heads.turn n
    obtain ⟨sp', others, heads'⟩ := ih heads_u
    exact ⟨sp', (SplitSearch.run_cons first turns).trans others, heads'⟩

/-- The workers that are done have the answers they headed for. -/
theorem SplitSearch.Heads.map_answer (heads : sp.Heads seed mask answers) (done : sp.Done) :
    sp.workers.map Worker.answer = answers.map some := by
  refine List.ext_getElem? fun n => ?_
  rw [List.getElem?_map, List.getElem?_map]
  cases worker : sp.workers[n]? with
  | none =>
    have past : answers[n]? = none := List.getElem?_eq_none (heads.length ▸ List.getElem?_eq_none_iff.mp worker)
    rw [past]
    rfl
  | some k =>
    obtain ⟨e, a, -, answer, to_answer⟩ := heads.worker n k worker
    obtain ⟨b, has⟩ := Option.isSome_iff_exists.mp (done k (List.mem_of_getElem? worker))
    rw [answer, Option.map_some, Option.map_some, has, to_answer.answer_eq has]

theorem SplitSearch.Heads.answer_of_done (heads : sp.Heads seed mask answers) (done : sp.Done) :
    sp.answer = some (reduceAnswers answers) := by
  have collected : sp.workers.filterMap Worker.answer = answers := by
    calc sp.workers.filterMap Worker.answer
      _ = (sp.workers.map Worker.answer).filterMap id := by rw [List.filterMap_map, Function.id_comp]
      _ = (answers.map some).filterMap id := by rw [heads.map_answer done]
      _ = answers := List.filterMap_map.trans List.filterMap_some
  rw [SplitSearch.answer, if_pos (List.all_eq_true.mpr done), collected]

theorem SplitSearch.done_of_answer {r : Except SearchError Nat} (h : sp.answer = some r) : sp.Done := by
  unfold SplitSearch.answer at h
  split at h
  · next done => exact List.all_eq_true.mp done
  · cases h

theorem SplitSearch.Heads.answer_eq (heads : sp.Heads seed mask answers) {r : Except SearchError Nat} (h : sp.answer = some r) :
    r = reduceAnswers answers :=
  Option.some.inj (h.symm.trans (heads.answer_of_done (SplitSearch.done_of_answer h)))

/-- The workers below `n`, one after the other, take their turns until they are done. -/
theorem SplitSearch.Heads.reaches_done_below (heads : sp.Heads seed mask answers) (n : Nat) :
    ∃ turns sp', SplitSearch.run seed mask turns sp = .next sp' ∧ sp'.Heads seed mask answers ∧
      ∀ m < n, ∀ k, sp'.workers[m]? = some k → k.answer.isSome = true := by
  induction n with
  | zero => exact ⟨[], sp, rfl, heads, fun m lt => absurd lt (Nat.not_lt_zero m)⟩
  | succ n ih =>
    obtain ⟨turns, u, before, heads_u, below⟩ := ih
    cases worker : u.workers[n]? with
    | none =>
      refine ⟨turns, u, before, heads_u, fun m lt k at_m => ?_⟩
      obtain lt | rfl := Nat.lt_succ_iff_lt_or_eq.mp lt
      · exact below m lt k at_m
      · cases worker.symm.trans at_m
    | some q =>
      obtain ⟨e, a, engine, -, q', t, ⟨fuel, run⟩, done⟩ := heads_u.worker n q worker
      obtain ⟨sp', after, worker', others⟩ := SplitSearch.run_worker worker engine run
      obtain ⟨v, after', heads'⟩ := heads_u.run (List.replicate fuel n)
      obtain rfl := Host.Outcome.next.inj (after.symm.trans after')
      refine ⟨turns ++ List.replicate fuel n, sp', (SplitSearch.run_append before _).trans after, heads', fun m lt k at_m => ?_⟩
      obtain lt | rfl := Nat.lt_succ_iff_lt_or_eq.mp lt
      · exact below m lt k ((others m (Nat.ne_of_lt lt)).symm.trans at_m)
      · obtain rfl := Option.some.inj (worker'.symm.trans at_m)
        rw [done]; rfl

theorem SplitSearch.Heads.reaches_done (heads : sp.Heads seed mask answers) :
    ∃ turns sp', SplitSearch.run seed mask turns sp = .next sp' ∧ sp'.Heads seed mask answers ∧ sp'.Done := by
  obtain ⟨turns, sp', run, heads', below⟩ := heads.reaches_done_below answers.length
  refine ⟨turns, sp', run, heads', fun k mem => ?_⟩
  obtain ⟨n, lt, at_n⟩ := List.mem_iff_getElem.mp mem
  exact below n (heads'.length ▸ lt) k (List.getElem?_eq_some_iff.mpr ⟨lt, at_n⟩)

end

/-! ### The start -/

/-- A range's worker, on an engine that is ready, heads for what trying the range answers. -/
theorem CounterRange.worker_heads (seed : Seed) (mask : Word) (r : CounterRange) {s : State} (ready : s.Ready) :
    r.worker.Heads seed mask (tryRange seed mask r.size r.first) s := by
  unfold CounterRange.worker
  cases r.size with
  | zero => exact .of_answer s rfl
  | succ size => exact Worker.heads_tryRange seed mask r.first size ready

theorem SplitSearch.start_eq_ok {cb : Nat} {ranges : List CounterRange} {pl : Platform} {sp : SplitSearch}
    (h : SplitSearch.start cb ranges pl = .ok sp) :
    partitions (lastCounter cb) 1 ranges = true ∧ ranges.length ≤ pl.engines.length ∧
      sp = { platform := pl, workers := ranges.map CounterRange.worker } := by
  unfold SplitSearch.start at h
  split_ifs at h with refused few
  exact ⟨by simpa using refused, Nat.not_lt.mp few, (Except.ok.inj h).symm⟩

theorem SplitSearch.start_heads {ranges : List CounterRange} {pl : Platform} (seed : Seed) (mask : Word)
    (ready : ∀ e ∈ pl.engines, e.machine.Ready) (enough : ranges.length ≤ pl.engines.length) :
    SplitSearch.Heads seed mask (ranges.map fun r => tryRange seed mask r.size r.first)
      { platform := pl, workers := ranges.map CounterRange.worker } := by
  refine ⟨by simp, fun n k worker => ?_⟩
  rw [List.getElem?_map, Option.map_eq_some_iff] at worker
  obtain ⟨r, range, rfl⟩ := worker
  obtain ⟨lt, -⟩ := List.getElem?_eq_some_iff.mp range
  have engine := List.getElem?_eq_getElem (l := pl.engines) (lt.trans_le enough)
  exact ⟨_, _, engine, by rw [List.getElem?_map, range]; rfl, r.worker_heads seed mask (ready _ (List.mem_of_getElem? engine))⟩

/-- Settles O55: the workers head for the answers of `splitSearch`, which is one search of the same counters (O53). -/
theorem splitSearchOnThePlatformIsTheReferenceSearch : Obligations.SplitSearchOnThePlatformIsTheReferenceSearch := by
  intro cb seed mask ranges pl sp pos quiet started
  obtain ⟨parts, enough, rfl⟩ := SplitSearch.start_eq_ok started
  have ready : ∀ e ∈ pl.engines, e.machine.Ready := fun e mem =>
    have ⟨idle, pending, schedule⟩ := quiet e mem
    ⟨idle, pending, schedule⟩
  have heads := SplitSearch.start_heads seed mask ready enough
  have reduced := splitSearch_eq_search pos parts seed mask
  rw [splitSearch] at reduced
  refine ⟨fun turns => ?_, ?_⟩
  · obtain ⟨sp', run, heads'⟩ := heads.run turns
    exact ⟨sp', run, fun r answer => (heads'.answer_eq answer).trans reduced⟩
  · obtain ⟨turns, sp', run, heads', done⟩ := heads.reaches_done
    exact ⟨turns, sp', run, reduced ▸ heads'.answer_of_done done⟩

end Sys2Proof.Machine
end

section
/-!
PROOFS of 60_exceptions.md: what an instruction can do to the two error flags, said once as `FlagEffect`, and from it the causes of
CERR (O28) and of PERR (O29), their priority (O30), and what clears them (O31).
-/

namespace Sys2Proof.Machine

/-! ### What an instruction does to the error flags, R251, R253 and R258 -/

/-- What an instruction can do to PERR and CERR, each effect with the condition under which it has it. -/
inductive FlagEffect (i : Instr) (h h' : Hce) : Prop where
  | keeps (perr : h'.perr = h.perr) (cerr : h'.cerr = h.cerr)
  | setsCerr (c : CerrCause) (cause : c.holds i h) (effect : h' = h.setCerr)
  | setsPerr (pack : commandOf i = some .pack) (idle : h.busy = false) (full : ¬ h.len.toNat < 56) (effect : h' = h.setPerr)
  | clears (clear : commandOf i = some .clear) (effect : h' = h.clearMessage)

/-- R80 and R190: an instruction that asks for a command performs it, by either route. -/
theorem exec_of_commandOf {i : Instr} {c : Command} (asks : commandOf i = some c) (s : State) :
    exec i s = exec c.toInstr s := by
  cases i with
  | nop | clear | append | pack | start =>
    obtain rfl := Option.some.inj asks
    rfl
  | wrCmd v => exact exec_wrCmd_legal asks s
  | rdStatus | rdResult | rdW | wrW => cases asks

theorem flagEffect_of_command {i : Instr} {c : Command} {s t : State} (asks : commandOf i = some c)
    (h : exec c.toInstr s = .next t) : FlagEffect i s.hce t.hce := by
  cases c with
  | nop =>
    obtain rfl : s = t := by simpa [Command.toInstr, exec, execNop] using h
    exact .keeps rfl rfl
  | clear =>
    obtain rfl : s.withHce s.hce.clearMessage = t := by simpa [Command.toInstr, exec, execClear] using h
    exact .clears asks rfl
  | append b =>
    obtain rfl := execAppend_next (b := b) h
    exact .keeps (by simp) (by simp)
  | pack =>
    obtain ⟨busy, rfl⟩ | ⟨-, -, rfl⟩ | ⟨idle, full, rfl⟩ := execPack_cases h
    · exact .setsCerr .packBusy ⟨asks, busy⟩ rfl
    · exact .keeps rfl rfl
    · exact .setsPerr asks idle full rfl
  | start =>
    obtain ⟨busy | perr, rfl⟩ | ⟨-, -, rfl⟩ := execStart_cases h
    · exact .setsCerr .startBusy ⟨asks, busy⟩ rfl
    · exact .setsCerr .startPerr ⟨asks, perr⟩ rfl
    · exact .keeps rfl rfl

theorem flagEffect_of_exec {i : Instr} {s t : State} (h : exec i s = .next t) : FlagEffect i s.hce t.hce := by
  cases asks : commandOf i with
  | some c => exact flagEffect_of_command asks ((exec_of_commandOf asks s).symm.trans h)
  | none =>
    have read (returns : ∃ v, exec i s = .next (s.returnData v)) : FlagEffect i s.hce t.hce := by
      obtain ⟨v, hv⟩ := returns
      obtain rfl : s.returnData v = t := by simpa [hv] using h
      exact .keeps rfl rfl
    cases i with
    | nop | clear | append | pack | start => cases asks
    | wrCmd v =>
      obtain rfl := reject_next ((exec_wrCmd_illegal asks s).symm.trans h)
      exact .setsCerr .illegal ⟨v, rfl, asks⟩ rfl
    | rdStatus | rdResult | rdW => exact read ⟨_, rfl⟩
    | wrW k v =>
      obtain ⟨busy, rfl⟩ | ⟨-, rfl⟩ := execWrW_cases h
      · exact .setsCerr .wBusy ⟨⟨k, v, rfl⟩, busy⟩ rfl
      · exact .keeps rfl rfl

/-- R251 and R253: the ENGINE writes neither error flag. -/
theorem engineRound_keeps_flags {s t : State} (h : engineRound s = .next t) :
    t.hce.perr = s.hce.perr ∧ t.hce.cerr = s.hce.cerr := by
  obtain ⟨-, rfl⟩ | ⟨-, _, rfl⟩ := engineRound_cases h
  · exact ⟨rfl, rfl⟩
  · simp

/-! ### CERR, R251 -/

/-- A cause of R251 holds: the instruction is turned away, whatever CERR was. -/
theorem exec_of_cerrCause {i : Instr} {s : State} {c : CerrCause} (cause : c.holds i s.hce) :
    exec i s = .next (s.withHce s.hce.setCerr) := by
  cases c with
  | illegal =>
    obtain ⟨v, rfl, illegal⟩ := cause
    exact exec_wrCmd_illegal illegal s
  | packBusy =>
    obtain ⟨asks, busy⟩ := cause
    exact (exec_of_commandOf asks s).trans (exec_pack_busy busy)
  | startBusy =>
    obtain ⟨asks, busy⟩ := cause
    exact (exec_of_commandOf asks s).trans (exec_start_rejected (.inl busy))
  | startPerr =>
    obtain ⟨asks, perr⟩ := cause
    exact (exec_of_commandOf asks s).trans (exec_start_rejected (.inr perr))
  | wBusy =>
    obtain ⟨⟨k, v, rfl⟩, busy⟩ := cause
    exact exec_wrW_busy busy k v

/-- Settles O28: a cause turns the instruction away; of the effects on the flags, one alone sets CERR, and it has a cause. -/
theorem cerrIsSetByExactlyTheListedCauses : Obligations.CerrIsSetByExactlyTheListedCauses := by
  refine ⟨fun i s c => exec_of_cerrCause, fun i s t h before after => ?_, fun s t h => (engineRound_keeps_flags h).2⟩
  cases flagEffect_of_exec h with
  | keeps _ cerr => simp [cerr, before] at after
  | setsCerr c cause _ => exact ⟨c, cause⟩
  | setsPerr _ _ _ effect => simp [effect, before] at after
  | clears _ effect => simp [effect] at after

/-! ### PERR, R253 -/

/-- R33, I5: a LEN that is not below 56 is 56. -/
theorem Hce.len_eq_of_full {h : Hce} (i5 : h.I5) (full : ¬ h.len.toNat < 56) : h.len = 56#6 := by
  obtain ⟨le, -⟩ := i5
  exact BitVec.eq_of_toNat_eq (Nat.le_antisymm le (Nat.not_lt.mp full))

/-- Settles O29: of the effects on the flags, one alone sets PERR, and it is PACK's of a full buffer. -/
theorem perrIsSetOnlyByPackOfAFullBuffer : Obligations.PerrIsSetOnlyByPackOfAFullBuffer := by
  refine ⟨fun i s t i5 h before => ⟨fun after => ?_, ?_⟩, fun s t h => (engineRound_keeps_flags h).1,
    fun s perr => exec_start_rejected (.inr perr)⟩
  · cases flagEffect_of_exec h with
    | keeps perr _ => simp [perr, before] at after
    | setsCerr _ _ effect => simp [effect, before] at after
    | setsPerr pack idle full _ => exact ⟨pack, idle, Hce.len_eq_of_full i5 full⟩
    | clears _ effect => simp [effect] at after
  · rintro ⟨pack, idle, len⟩
    have fails : exec i s = .next (s.withHce s.hce.setPerr) :=
      (exec_of_commandOf pack s).trans (exec_pack_full idle (by simp [len]))
    obtain rfl : s.withHce s.hce.setPerr = t := by simpa [fails] using h
    rfl

/-! ### The priority of the conditions, R255 -/

/-- R199's list speaks of width, offset and direction alone. -/
theorem accessError_of_accessError {a : Access} {s : State} (h : performAccess a s = .fault (.accessError a.off))
    (data : Word) (s' : State) : performAccess { a with data := data } s' = .fault (.accessError a.off) :=
  (accessErrorForExactlyTheListedAccesses { a with data := data } s').mpr ((accessErrorForExactlyTheListedAccesses a s).mp h)

theorem FlagEffect.sets_at_most_one {i : Instr} {h h' : Hce} (e : FlagEffect i h h') :
    ¬ (h.cerr = false ∧ h'.cerr = true ∧ h.perr = false ∧ h'.perr = true) := by
  rintro ⟨cerr, cerr', perr, perr'⟩
  cases e with
  | keeps same _ => simp [same, perr] at perr'
  | setsCerr _ _ effect => simp [effect, perr] at perr'
  | setsPerr _ _ _ effect => simp [effect, cerr] at cerr'
  | clears _ effect => simp [effect] at cerr'

/-- Settles O30: each priority by the outcome of its access; an access is one instruction, which sets at most one flag. -/
theorem eachAccessSetsAtMostOneFlag : Obligations.EachAccessSetsAtMostOneFlag := by
  refine ⟨fun a data s s' h => accessError_of_accessError h data s', fun v s illegal => exec_wrCmd_illegal illegal s,
    fun s busy _ => exec_pack_busy busy, fun s => exec_start_rejected, fun a s t h => ?_⟩
  obtain ⟨i, -, performed⟩ | ⟨-, -, fault⟩ := performAccess_cases a s
  · exact (flagEffect_of_exec (performed.symm.trans h)).sets_at_most_one
  · cases fault.symm.trans h

/-! ### What clears the flags, R258 -/

/-- An error flag is 1 in `h` and 0 in `h'`. -/
def FlagCleared (h h' : Hce) : Prop := (h.perr = true ∧ h'.perr = false) ∨ (h.cerr = true ∧ h'.cerr = false)

theorem not_flagCleared_of_keeps {h h' : Hce} (perr : h'.perr = h.perr) (cerr : h'.cerr = h.cerr) : ¬ FlagCleared h h' := by
  simp [FlagCleared, perr, cerr]

theorem FlagEffect.clear_of_flagCleared {i : Instr} {h h' : Hce} (e : FlagEffect i h h') (cleared : FlagCleared h h') :
    commandOf i = some .clear := by
  cases e with
  | keeps perr cerr => exact absurd cleared (not_flagCleared_of_keeps perr cerr)
  | setsCerr _ _ effect => simp [FlagCleared, effect] at cleared
  | setsPerr _ _ _ effect => simp [FlagCleared, effect] at cleared
  | clears clear _ => exact clear

/-- The host's next action is an access that performs CLEAR. -/
def State.ClearIsNext (s : State) : Prop :=
  ∃ a rest i, s.pending = .access a :: rest ∧ decodeAccess a = .ok i ∧ commandOf i = some .clear

theorem clearIsNext_of_hostTurn {s t : State} (h : hostTurn s = .next t) (cleared : FlagCleared s.hce t.hce) : s.ClearIsNext := by
  obtain ⟨-, rfl⟩ | ⟨a, rest, i, hp, hd, hx⟩ | ⟨rest, -, hce, -⟩ := hostTurn_cases h
  · exact absurd cleared (not_flagCleared_of_keeps rfl rfl)
  · exact ⟨a, rest, i, hp, hd, (flagEffect_of_exec hx).clear_of_flagCleared cleared⟩
  · exact absurd cleared (not_flagCleared_of_keeps (by rw [hce]) (by rw [hce]))

theorem takeTurn_flagCleared {u : Turn} {s t : State} (h : takeTurn u s = .next t) (cleared : FlagCleared s.hce t.hce) :
    u = .reset ∨ s.ClearIsNext := by
  cases u with
  | host => exact .inr (clearIsNext_of_hostTurn h cleared)
  | engine =>
    obtain ⟨perr, cerr⟩ := engineRound_keeps_flags h
    exact absurd cleared (not_flagCleared_of_keeps perr cerr)
  | reset => exact .inl rfl

/-- Settles O31: the turn taken is a reset, or the HOST's with a CLEAR; by default it is never a reset. -/
theorem onlyClearAndResetClearTheErrorFlags : Obligations.OnlyClearAndResetClearTheErrorFlags := by
  intro s t h cleared
  obtain ⟨u, turns, scheduled, turn⟩ | ⟨-, turn⟩ := step_turn s <;> rw [turn] at h
  · obtain rfl | clear := takeTurn_flagCleared h cleared
    · exact .inl (by rw [scheduled]; rfl)
    · exact .inr clear
  · obtain reset | clear := takeTurn_flagCleared h cleared
    · exact absurd reset (defaultTurn_ne_reset s)
    · exact .inr clear

end Sys2Proof.Machine
end

section
/-!
PROOFS of 70_reset_and_hazards.md: a reset in any state (O35).
-/

namespace Sys2Proof.Machine

/-- R280: a reset turn completes in every state, and changes the HCE and the schedule alone. -/
theorem step_reset {s : State} {turns : List Turn} (scheduled : s.schedule = .reset :: turns) :
    step s = .next ({ s with schedule := turns } : State).resetHce :=
  step_scheduled scheduled

/-- Settles O35: the step leaves `Hce.reset`, whose values are those of O36; as BUSY is 0, the ENGINE is idle. -/
theorem resetInAnyStateGivesTheResetValues : Obligations.ResetInAnyStateGivesTheResetValues := by
  intro s turns scheduled
  obtain ⟨busy, done, perr, cerr, len, rnd, result, w, status⟩ := resetStateHasTheResetValues
  exact ⟨_, step_reset scheduled, busy, done, perr, cerr, len, rnd, result, fun k lt => w ⟨k, lt⟩, status, engineRound_idle busy⟩

end Sys2Proof.Machine
end
